-- ==== Sys2Proof/Word.lean ====
section
/-! DEFINITION. The machine's word, byte and opcode types (spec/00_scope.md R5, R7). -/

namespace Sys2Proof

/-- One word: a register, a memory cell, an instruction (R5 `XLEN`, R7). -/
abbrev Word := BitVec 32

/-- One operand field of an instruction word (R5 `OPERAND_BITS`). -/
abbrev Byte := BitVec 8

/-- The opcode field of an instruction word (R5 `OPCODE_BITS`). -/
abbrev Opcode := BitVec 16

end Sys2Proof
end

