-- ==== Sys2Proof/Config.lean ====
section
/-! DEFINITION. The parameters of the hardware (spec/00_scope.md R5). The spec gives each of them a value but for
the length and contents of memory, which are fields of the state; there is no free value. -/

namespace Sys2Proof.Config

/-- `REGISTER_COUNT`, the number of general-purpose registers (R5). -/
abbrev registerCount : Nat := 16

/-- `PC_INDEX`, the register-file index of the program counter (R5, R23). -/
abbrev pcIndex : Nat := 16

/-- `REGFILE_LEN`, the length of the register file (R5, R20). -/
abbrev regfileLen : Nat := 17

/-- The greatest `MEM_WORDS` the spec admits (R5). -/
abbrev maxMemWords : Nat := 2147483648

/-- `MEM_WORDS` of the reset state the host asks for. DESIGN CHOICE, unsafe (log 1): the spec leaves the size open, and
the model takes the largest one, the whole address space. -/
abbrev resetMemWords : Nat := maxMemWords

/-- `GPR_RESET` (R5, R34). -/
abbrev gprReset : Word := 0

/-- `PC_RESET` (R5, R34). -/
abbrev pcReset : Word := 0

/-! The seven opcode numbers, one constant each, as R85 numbers them. -/

abbrev opcNop : Opcode := 0
abbrev opcHlt : Opcode := 1
abbrev opcLdm : Opcode := 2
abbrev opcLdq : Opcode := 3
abbrev opcWrm : Opcode := 4
abbrev opcAdd : Opcode := 5
abbrev opcAdq : Opcode := 6

end Sys2Proof.Config
end

