-- ==== Sys2Proof/Machine/State.lean ====
section
/-! DEFINITION. The whole state of the machine as plain data (spec/10_state.md R20 to R34), the outcomes a step may have
beside a next state, and the state after reset (R34). -/

namespace Sys2Proof.Machine

/-- An index of the register file (R20). -/
abbrev RegIndex := Fin Config.regfileLen

/-- The register-file entry that is the program counter (R23). -/
abbrev pcReg : RegIndex := 16

/-- One listed memory cell: its word index and its word. The addressable unit is the 32-bit word, and a model must not
introduce byte lanes (R32, R51, R56), so a cell holds a word (log 3). -/
abbrev MemCell := Nat × Word

/-- The error/halt mask, as three named flags (R27, R28). It is one core's own (R36). -/
structure Err where
  /-- `ERR.UNKNOWN_OPCODE`: the halt was caused by an unrecognised instruction. -/
  unknownOpcode : Bool
  /-- `ERR.HALTED`: the run loop must stop. It is also the engine state (R31). -/
  halted : Bool
  /-- `ERR.ADDR_FAULT`: the halt was caused by an index out of range. -/
  addrFault : Bool
  deriving DecidableEq, Repr

/-- The mask with every flag clear, as reset leaves it (R29, R34). -/
def Err.clear : Err := { unknownOpcode := false, halted := false, addrFault := false }

/-- Memory (R32): its length `MEM_WORDS`, fixed for a run, and the cells that do not hold zero, addresses rising. A cell
that is not listed holds zero, as memory built from a size does (R34, R66). -/
structure Memory where
  words : Nat
  cells : List MemCell
  deriving DecidableEq, Repr

/-- Everything the machine holds (R33). -/
structure State where
  /-- The register file: r0 to r15, then the program counter (R20). -/
  x : Vector Word Config.regfileLen
  err : Err
  mem : Memory
  deriving DecidableEq, Repr

/-- A step that stops the machine by a fault. There is none: the spec describes every exceptional condition as an effect on
`ERR` (R190, R191), so the model takes it in a next state, and nobody raises a value of this type. Safe (log 5). -/
inductive Fault
  deriving DecidableEq, Repr

/-- A step that has no meaning. -/
inductive Refusal where
  /-- The instruction has no meaning yet. Nobody raises it: every instruction has its meaning. Safe (log 5). -/
  | notModelled (mnemonic : String)
  deriving DecidableEq, Repr

/-- The register file after reset (R34). -/
def resetRegisters : Vector Word Config.regfileLen :=
  (Vector.replicate Config.regfileLen Config.gprReset).set pcReg Config.pcReset

/-- The state after reset of a core bound to the given memory (R34, R230, R231): the theorems that quantify over `mem`
quantify over `MEM_WORDS` and `MEM_INIT`. -/
def State.resetWith (mem : Memory) : State :=
  { x := resetRegisters, err := Err.clear, mem := mem }

/-- The machine right after reset, with memory built from a size only, so all zero (R34). The size is a DESIGN CHOICE,
unsafe (log 1); that no program is in it is log 2. -/
def State.reset : State := State.resetWith { words := Config.resetMemWords, cells := [] }

end Sys2Proof.Machine
end

