-- ==== Sys2Proof/Machine/Flags.lean ====
section
/-! DEFINITION. The error/halt mask: who sets which flag, and how it reads as one number (spec/10_state.md R27 to R31).
There are no condition codes (R30). -/

namespace Sys2Proof.Machine

/-- `ERR.HALTED <- 1` (R131, R191). -/
def Err.setHalted (e : Err) : Err := { e with halted := true }

/-- `ERR.UNKNOWN_OPCODE <- 1` (R191, R192). -/
def Err.setUnknownOpcode (e : Err) : Err := { e with unknownOpcode := true }

/-- `ERR.ADDR_FAULT <- 1` (R191, R193). -/
def Err.setAddrFault (e : Err) : Err := { e with addrFault := true }

/-- The mask as one number: bit 0 `UNKNOWN_OPCODE`, bit 1 `HALTED`, bit 2 `ADDR_FAULT` (R28; log 8). -/
def Err.mask (e : Err) : Nat := e.unknownOpcode.toNat + 2 * e.halted.toNat + 4 * e.addrFault.toNat

/-- The combinations of flags a run can reach: an error flag never without `HALTED`, and never both error flags
(R27, R29). -/
def Err.wf (e : Err) : Bool :=
  (e.halted || !(e.unknownOpcode || e.addrFault)) && !(e.unknownOpcode && e.addrFault)

end Sys2Proof.Machine
end

