-- ==== Sys2Proof/Machine/Primitives.lean ====
section
/-! DEFINITION. The pseudocode primitives on words (spec/00_scope.md R7, R8). -/

namespace Sys2Proof.Machine

/-- `signed(w)`: the two's-complement integer of a word (R7). -/
def signed (w : Word) : Int := w.toInt

/-- `pattern(v)`: the word of an integer taken modulo `2^32` (R7). -/
def pattern (v : Int) : Word := BitVec.ofInt 32 v

/-- `zext_32(b)` of a byte (R8, R88). -/
def zext32 (b : Byte) : Word := b.setWidth 32

/-- `sext_32(b)` of a byte. R8 defines it for completeness; no instruction uses it (R88). -/
def sext32 (b : Byte) : Word := b.signExtend 32

/-- `add32(a, b)`: the exact integer sum taken modulo `2^32` (R8, R153). -/
def add32 (a b : Word) : Word := pattern (signed a + signed b)

end Sys2Proof.Machine
end

