-- ==== Sys2Proof/Machine/Ops.lean ====
section
/-! DEFINITION. The named operations over memory, the register file and the error/halt mask: reading and writing a cell
(spec/20_memory.md R52 to R55), reading and writing a register (spec/00_scope.md R8), raising an exception
(spec/60_exceptions.md R191), and reset, the only way out of Halted (spec/70_reset_and_hazards.md R231). -/

namespace Sys2Proof.Machine

/-! ### Memory -/

/-- The word at an index of a list of cells with rising addresses; zero where none is listed. -/
def readCells : List MemCell → Nat → Word
  | [], _ => 0
  | (b, w) :: rest, a => if a < b then 0 else if a = b then w else readCells rest a

/-- Put a word in front of cells with greater addresses, unless it is the word an unlisted cell holds. -/
def consCell (a : Nat) (v : Word) (cells : List MemCell) : List MemCell :=
  if v = 0 then cells else (a, v) :: cells

/-- Store a word at an index of a list of cells, keeping addresses rising and no zero listed. -/
def writeCells : List MemCell → Nat → Word → List MemCell
  | [], a, v => consCell a v []
  | (b, w) :: rest, a, v =>
    if a < b then consCell a v ((b, w) :: rest)
    else if a = b then consCell a v rest
    else (b, w) :: writeCells rest a v

/-- Cells in canonical form: addresses strictly rising from `low` on and below `words`, no zero listed. -/
def cellsWf (words : Nat) : Nat → List MemCell → Bool
  | _, [] => true
  | low, (a, w) :: rest => decide (low ≤ a ∧ a < words ∧ w ≠ 0) && cellsWf words (a + 1) rest

/-- The canonical form of memory: `MEM_WORDS` no more than R5 admits, and the cells canonical. -/
def Memory.wf (m : Memory) : Bool :=
  decide (m.words ≤ Config.maxMemWords) && cellsWf m.words 0 m.cells

/-- `MemRead(a, 1)` (R53). The caller has checked the range. -/
def Memory.read (m : Memory) (a : Nat) : Word := readCells m.cells a

/-- `MemWrite(a, 1, v)` (R54). The caller has checked the range. -/
def Memory.write (m : Memory) (a : Nat) (v : Word) : Memory :=
  { m with cells := writeCells m.cells a v }

/-- The integer is the index of a cell: `0 <= a < MEM_WORDS` (R52). -/
def Memory.inRange (m : Memory) (a : Int) : Bool := decide (0 ≤ a ∧ a < (m.words : Int))

/-! ### Registers -/

/-- `x[i]` (R8, R20). No entry is hardwired (R21). -/
def State.readReg (s : State) (i : RegIndex) : Word := s.x[i]

/-- `x[i] <- v` (R8, R20). -/
def State.writeReg (s : State) (i : RegIndex) (v : Word) : State := { s with x := s.x.set i v }

/-- `pc`, another spelling of `x[16]` (R23). -/
def State.pc (s : State) : Word := s.readReg pcReg

/-- `x[i] <- add32(x[i], v)`: the primitive the fetch and ADQ share (R25, R115). -/
def State.addToReg (s : State) (i : RegIndex) (v : Word) : State :=
  s.writeReg i (add32 (s.readReg i) v)

/-! ### The other parts of the state -/

/-- The state with another mask. -/
def State.withErr (s : State) (e : Err) : State := { s with err := e }

/-- The state with another memory. -/
def State.withMem (s : State) (m : Memory) : State := { s with mem := m }

/-! ### Exceptions and reset -/

/-- What an addressing fault was raised for (R190). -/
inductive AddressKind where
  | fetch
  | register
  | data
  deriving DecidableEq, Repr

/-- An exceptional condition with the arguments of its `raise` (R8, R190). The arguments are for diagnostics and are
stored nowhere in the machine. -/
inductive Cause where
  /-- `UnknownOpcode(w)`: the word fetched is no instruction (R192). -/
  | unknownOpcode (w : Word)
  /-- `AddressFault(kind, value)`: an index out of range (R193 to R196). -/
  | addressFault (kind : AddressKind) (value : Int)
  deriving DecidableEq, Repr

/-- The flags a `raise` sets (R191). -/
def Cause.setFlags (c : Cause) (e : Err) : Err :=
  match c with
  | .unknownOpcode _ => e.setUnknownOpcode.setHalted
  | .addressFault _ _ => e.setAddrFault.setHalted

/-- Taking an exception (R191): the flags are set and nothing else changes. There is no handler, no saved register, no
redirection of the program counter and no mode (R200). -/
def raise (c : Cause) (s : State) : State := s.withErr (c.setFlags s.err)

/-- The reset event (R230, R231): registers and `ERR` at their reset values, memory left alone. There is no return from an
exception (R200); reset is the only way out of Halted. -/
def State.resetEvent (s : State) : State := State.resetWith s.mem

/-- The end of a phase that may raise: its state, or the exception taken in the state it began in, since a raising phase
has written nothing (R117, R191, R197). -/
def complete (s : State) (r : Except Cause State) : Host.Outcome State Fault Refusal :=
  match r with
  | .ok t => .next t
  | .error c => .next (raise c s)

end Sys2Proof.Machine
end

