-- ==== Sys2Proof/Machine/Operands.lean ====
section
/-! DEFINITION. The operand forms (spec/30_encoding.md R87): a register index with its check, an immediate, and the one
addressing mode, register indirect (spec/42_ldm_wrm.md). -/

namespace Sys2Proof.Machine

/-- The register-file entry an operand byte names, guarded as `RegRead` and `RegWrite` are: a byte above 16 raises
`AddressFault(register, i)`; 16 is the program counter (R116, R26, R35). The byte is not masked (R89). -/
def regIndex (b : Byte) : Except Cause RegIndex :=
  if h : b.toNat < Config.regfileLen then .ok ⟨b.toNat, h⟩
  else .error (.addressFault .register (b.toNat : Int))

/-- The immediate form: the byte zero-extended, never sign-extended (R87, R88). -/
def immediate (b : Byte) : Word := zext32 b

/-- The memory index a word names, guarded by the range check: the signed value of the word, which raises
`AddressFault(kind, a)` outside `[0, MEM_WORDS)` (R52, R55). Never wrapped, never masked. -/
def memIndex (kind : AddressKind) (m : Memory) (w : Word) : Except Cause Nat :=
  if m.inRange (signed w) then .ok (signed w).toNat
  else .error (.addressFault kind (signed w))

end Sys2Proof.Machine
end

