-- ==== Sys2Proof/Machine/LdmWrm.lean ====
section
/-! DEFINITION. LDM and WRM (spec/42_ldm_wrm.md). Each effect keeps the order of R117: operand1's index, operand2's index,
the source registers, the address range, the access, the write. -/

namespace Sys2Proof.Machine

/-- `x[target] <- MEM[x[source]]` (R140). -/
def ldmEffect (source target : Byte) (s : State) : Except Cause State := do
  let i ← regIndex source
  let t ← regIndex target
  let a ← memIndex .data s.mem (s.readReg i)
  pure (s.writeReg t (s.mem.read a))

/-- `MEM[x[location]] <- x[value]` (R141). -/
def wrmEffect (location value : Byte) (s : State) : Except Cause State := do
  let l ← regIndex location
  let r ← regIndex value
  let a ← memIndex .data s.mem (s.readReg l)
  pure (s.withMem (s.mem.write a (s.readReg r)))

/-- The execute phase of LDM (R140). -/
def execLdm (source target : Byte) (s : State) : Host.Outcome State Fault Refusal :=
  complete s (ldmEffect source target s)

/-- The execute phase of WRM (R141). -/
def execWrm (location value : Byte) (s : State) : Host.Outcome State Fault Refusal :=
  complete s (wrmEffect location value s)

end Sys2Proof.Machine
end

