-- ==== Sys2Proof/Machine/LdqAddAdq.lean ====
section
/-! DEFINITION. LDQ, ADD and ADQ (spec/43_ldq_add_adq.md), in the order of R117. No flag changes (R153). -/

namespace Sys2Proof.Machine

/-- `x[target] <- zext_32(imm)` (R150). -/
def ldqEffect (target imm : Byte) (s : State) : Except Cause State := do
  let r ← regIndex target
  pure (s.writeReg r (immediate imm))

/-- `x[dest] <- add32(x[dest], x[source])` (R151). -/
def addEffect (dest source : Byte) (s : State) : Except Cause State := do
  let d ← regIndex dest
  let r ← regIndex source
  pure (s.addToReg d (s.readReg r))

/-- `x[dest] <- add32(x[dest], zext_32(imm))` (R152). -/
def adqEffect (dest imm : Byte) (s : State) : Except Cause State := do
  let r ← regIndex dest
  pure (s.addToReg r (immediate imm))

/-- The execute phase of LDQ (R150). -/
def execLdq (target imm : Byte) (s : State) : Host.Outcome State Fault Refusal :=
  complete s (ldqEffect target imm s)

/-- The execute phase of ADD (R151). -/
def execAdd (dest source : Byte) (s : State) : Host.Outcome State Fault Refusal :=
  complete s (addEffect dest source s)

/-- The execute phase of ADQ (R152). -/
def execAdq (dest imm : Byte) (s : State) : Host.Outcome State Fault Refusal :=
  complete s (adqEffect dest imm s)

end Sys2Proof.Machine
end

