-- ==== Sys2Proof/Machine/NopHlt.lean ====
section
/-! DEFINITION. NOP and HLT (spec/41_nop_hlt.md), and the handler of an unrecognised opcode (R113, R192). Each meaning is the
execute phase: the fetch has already advanced the program counter. -/

namespace Sys2Proof.Machine

/-- NOP has no effect; its operand bytes are not looked at (R130, R90). -/
def execNop (s : State) : Host.Outcome State Fault Refusal := .next s

/-- HLT sets `ERR.HALTED`; its operand bytes are not looked at (R131, R90). -/
def execHlt (s : State) : Host.Outcome State Fault Refusal :=
  .next (s.withErr s.err.setHalted)

/-- The unknown-opcode handler: `raise UnknownOpcode(w)`; the operand bytes are not examined (R113, R192). -/
def execUnrecognised (w : Word) (s : State) : Host.Outcome State Fault Refusal :=
  .next (raise (.unknownOpcode w) s)

end Sys2Proof.Machine
end

