-- ==== Sys2Proof/Syntax.lean ====
section
/-! DEFINITION. The seven instructions (spec/30_encoding.md R85, R87), one constructor for each row of the opcode
table. Operand fields are kept as the bytes of the word: a register byte is not masked, and whether it names a
register is checked when the instruction executes (R89). -/

namespace Sys2Proof

inductive Instr where
  /-- No operation. Both operand bytes are ignored (R90) and kept, so that no bit of the word is lost (log 9). -/
  | nop (op1 op2 : Byte)
  /-- Halt. Both operand bytes are ignored (R90) and kept (log 9). -/
  | hlt (op1 op2 : Byte)
  /-- Load the register `target` from the memory cell whose address the register `source` holds (R140). -/
  | ldm (source target : Byte)
  /-- Load the register `target` with the byte `imm` (R150). -/
  | ldq (target imm : Byte)
  /-- Store the register `value` to the memory cell whose address the register `location` holds (R141). -/
  | wrm (location value : Byte)
  /-- Add the register `source` to the register `dest` (R151). -/
  | add (dest source : Byte)
  /-- Add the byte `imm` to the register `dest` (R152). -/
  | adq (dest imm : Byte)
  deriving DecidableEq, Repr

end Sys2Proof
end

