-- ==== Sys2Proof/Machine/Dispatch.lean ====
section
/-! DEFINITION. Dispatch (spec/40_step_cycle.md R113): the execute phase of every instruction, one arm each. -/

namespace Sys2Proof.Machine

def exec (i : Instr) (s : State) : Host.Outcome State Fault Refusal :=
  match i with
  | .nop _ _ => Sys2Proof.Machine.execNop s
  | .hlt _ _ => Sys2Proof.Machine.execHlt s
  | .ldm source target => Sys2Proof.Machine.execLdm source target s
  | .ldq target imm => Sys2Proof.Machine.execLdq target imm s
  | .wrm location value => Sys2Proof.Machine.execWrm location value s
  | .add dest source => Sys2Proof.Machine.execAdd dest source s
  | .adq dest imm => Sys2Proof.Machine.execAdq dest imm s

end Sys2Proof.Machine
end

