-- ==== Sys2Proof/Decode.lean ====
section
/-! DEFINITION. Decoding, total on every word, and encoding (spec/30_encoding.md R81 to R86, R91). -/

namespace Sys2Proof

/-- The three fields of an instruction word (R81). -/
structure Fields where
  opcode : Opcode
  operand1 : Byte
  operand2 : Byte
  deriving DecidableEq, Repr

/-- `decode(w)` of R82: the fields of any word. -/
def decodeFields (w : Word) : Fields :=
  { opcode := w.extractLsb' 0 16
    operand2 := w.extractLsb' 16 8
    operand1 := w.extractLsb' 24 8 }

/-- `encode(opcode, operand1, operand2)` of R83. -/
def encodeFields (f : Fields) : Word := (f.operand1 ++ f.operand2 ++ f.opcode).cast rfl

/-- Why a word is no instruction. -/
inductive DecodeError where
  /-- The opcode field is none of the seven opcode numbers (R91). Raised by `decodeInstr`; the step then raises
  `UnknownOpcode` as R192 says. Safe: the spec gives such a word no other meaning. -/
  | unrecognisedOpcode (opcode : Opcode)
  deriving DecidableEq, Repr

/-- The instruction with these fields: dispatch looks at the opcode field and at nothing else (R86). -/
def instrOfFields (f : Fields) : Except DecodeError Instr :=
  if f.opcode = Config.opcNop then .ok (.nop f.operand1 f.operand2)
  else if f.opcode = Config.opcHlt then .ok (.hlt f.operand1 f.operand2)
  else if f.opcode = Config.opcLdm then .ok (.ldm f.operand1 f.operand2)
  else if f.opcode = Config.opcLdq then .ok (.ldq f.operand1 f.operand2)
  else if f.opcode = Config.opcWrm then .ok (.wrm f.operand1 f.operand2)
  else if f.opcode = Config.opcAdd then .ok (.add f.operand1 f.operand2)
  else if f.opcode = Config.opcAdq then .ok (.adq f.operand1 f.operand2)
  else .error (.unrecognisedOpcode f.opcode)

/-- The instruction a word stands for, or the reason it stands for none (R82, R86, R91). -/
def decodeInstr (w : Word) : Except DecodeError Instr := instrOfFields (decodeFields w)

/-- The fields of an instruction (R85). -/
def fieldsOfInstr : Instr → Fields
  | .nop op1 op2 => ⟨Config.opcNop, op1, op2⟩
  | .hlt op1 op2 => ⟨Config.opcHlt, op1, op2⟩
  | .ldm source target => ⟨Config.opcLdm, source, target⟩
  | .ldq target imm => ⟨Config.opcLdq, target, imm⟩
  | .wrm location value => ⟨Config.opcWrm, location, value⟩
  | .add dest source => ⟨Config.opcAdd, dest, source⟩
  | .adq dest imm => ⟨Config.opcAdq, dest, imm⟩

/-- The word of an instruction (R83, R85). -/
def encodeInstr (i : Instr) : Word := encodeFields (fieldsOfInstr i)

/-- The decoder's answer on an instruction given as a number whose bit 0 is the least significant bit of its one word;
the bits at and above `nbits` are zero. -/
def decodeTableWord (nbits w : Nat) : Option Instr :=
  match decodeInstr (BitVec.ofNat 32 (w % 2 ^ nbits)) with
  | .ok i => some i
  | .error _ => none

end Sys2Proof
end

