-- ==== Sys2Proof/Machine/Fetch.lean ====
section
/-! DEFINITION. The fetch phase (spec/40_step_cycle.md R111) and placing a word where the next fetch reads. -/

namespace Sys2Proof.Machine

/-- Fetch (R111): check the program counter's range, read the word there, add 1 to the program counter whatever the word
is (R24, R25). A failed fetch changes nothing (R194). -/
def fetch (s : State) : Except Cause (Word × State) := do
  let a ← memIndex .fetch s.mem s.pc
  pure (s.mem.read a, s.addToReg pcReg 1)

/-- The state with the word stored in the cell the next fetch reads; unchanged where the fetch reads none (log 2). -/
def placeAtPc (s : State) (w : Word) : State :=
  match memIndex .fetch s.mem s.pc with
  | .ok a => s.withMem (s.mem.write a w)
  | .error _ => s

end Sys2Proof.Machine
end

