-- ==== Sys2Proof/Machine/Step.lean ====
section
/-! DEFINITION. One step: fetch, decode, dispatch, in this fixed order and indivisible (spec/40_step_cycle.md R110 to R118). -/

namespace Sys2Proof.Machine

/-- One step (R110 to R114). In Halted nothing is fetched and every part of the state keeps its value (R31, R118): the
answer is the same state. DESIGN CHOICE, unsafe for counts of steps past the halt (log 4). -/
def step (s : State) : Host.Outcome State Fault Refusal :=
  if s.err.halted then .next s
  else
    match fetch s with
    | .error c => .next (raise c s)
    | .ok (w, s') =>
      match decodeInstr w with
      | .error _ => execUnrecognised w s'
      | .ok i => exec i s'

/-- The state with an instruction, given as a number whose bit 0 is the least significant bit of its one word, stored
where the next step fetches (R111). It stands for the host's building of the memory image (R232; log 2). -/
def State.withFetchWord (s : State) (nbits w : Nat) : State :=
  placeAtPc s (BitVec.ofNat 32 (w % 2 ^ nbits))

end Sys2Proof.Machine
end

