-- ==== Sys2Proof/Machine/Diagnostics.lean ====
section
/-! DEFINITION. What a step raises, with the arguments of the `raise`: for a model's diagnostics, stored nowhere in the
machine (spec/00_scope.md R8, spec/60_exceptions.md R190, R198; log 10). -/

namespace Sys2Proof.Machine

/-- The cause a phase raised, if it raised one. -/
def causeOf {α : Type} (r : Except Cause α) : Option Cause :=
  match r with
  | .ok _ => none
  | .error c => some c

/-- What the execute phase of an instruction raises (R195, R196). -/
def execCause (i : Instr) (s : State) : Option Cause :=
  match i with
  | .nop _ _ => none
  | .hlt _ _ => none
  | .ldm source target => causeOf (ldmEffect source target s)
  | .ldq target imm => causeOf (ldqEffect target imm s)
  | .wrm location value => causeOf (wrmEffect location value s)
  | .add dest source => causeOf (addEffect dest source s)
  | .adq dest imm => causeOf (adqEffect dest imm s)

/-- What a step raises: at most one condition, the first met (R198). -/
def stepCause (s : State) : Option Cause :=
  if s.err.halted then none
  else
    match fetch s with
    | .error c => some c
    | .ok (w, s') =>
      match decodeInstr w with
      | .error _ => some (.unknownOpcode w)
      | .ok i => execCause i s'

end Sys2Proof.Machine
end

