-- ==== Sys2Proof/Machine/HostInterface.lean ====
section
/-! DEFINITION. What the host may do before and after a run, and the memory port's accesses during one
(spec/20_memory.md R58, R66; spec/70_reset_and_hazards.md R232, R240, R242). -/

namespace Sys2Proof.Machine

/-! ### Building memory before the run -/

/-- Memory built from a size: zero-filled (R66). -/
def Memory.ofSize (words : Nat) : Memory := { words := words, cells := [] }

/-- The cells of a sequence of words laid out from an index on. -/
def cellsOfWords : Nat → List Word → List MemCell
  | _, [] => []
  | a, w :: rest => consCell a w (cellsOfWords (a + 1) rest)

/-- Memory built from a sequence of words, copied (R66, R232). -/
def Memory.ofWords (ws : List Word) : Memory := { words := ws.length, cells := cellsOfWords 0 ws }

/-! ### Reading before and after the run -/

/-- `dump()`: every cell in order, with its index (R66). -/
def Memory.dump (m : Memory) : List (Nat × Word) := (List.range m.words).map fun a => (a, m.read a)

/-- The dump the host may take of a core: in Halted only (R241, R242; log 7). -/
def State.hostDump (s : State) : Option (List (Nat × Word)) :=
  if s.err.halted then some s.mem.dump else none

/-- `dbg_reg_data` for a `dbg_reg_index`: meaningful in Halted only, and the host never presents 17 to 31 (R240, R242;
log 7). -/
def State.debugReg (s : State) (i : BitVec 5) : Option Word :=
  if s.err.halted then
    if h : i.toNat < Config.regfileLen then some (s.readReg ⟨i.toNat, h⟩) else none
  else none

/-! ### The memory port -/

/-- One access at the memory port (R240): `mem_addr`, `mem_we`, and the word moved (`mem_rdata` of a read, `mem_wdata` of
a write). -/
structure BusAccess where
  addr : Word
  we : Bool
  data : Word
  deriving DecidableEq, Repr

/-- The data access of LDM, if its checks pass (R58, R140). -/
def ldmAccess (source target : Byte) (s : State) : Except Cause BusAccess := do
  let i ← regIndex source
  let _ ← regIndex target
  let a ← memIndex .data s.mem (s.readReg i)
  pure { addr := s.readReg i, we := false, data := s.mem.read a }

/-- The data access of WRM, if its checks pass (R58, R141). -/
def wrmAccess (location value : Byte) (s : State) : Except Cause BusAccess := do
  let l ← regIndex location
  let r ← regIndex value
  let _ ← memIndex .data s.mem (s.readReg l)
  pure { addr := s.readReg l, we := true, data := s.readReg r }

/-- The access of a phase that may raise instead (log 11). -/
def accessList (r : Except Cause BusAccess) : List BusAccess :=
  match r with
  | .ok b => [b]
  | .error _ => []

/-- The accesses of the execute phase, as the table of R58 has them. -/
def execAccesses (i : Instr) (s : State) : List BusAccess :=
  match i with
  | .nop _ _ => []
  | .hlt _ _ => []
  | .ldm source target => accessList (ldmAccess source target s)
  | .ldq _ _ => []
  | .wrm location value => accessList (wrmAccess location value s)
  | .add _ _ => []
  | .adq _ _ => []

/-- The accesses of one step in order: the fetch read, then at most one data access (R58, R61, R240). -/
def busAccesses (s : State) : List BusAccess :=
  if s.err.halted then []
  else
    match fetch s with
    | .error _ => []
    | .ok (w, s') =>
      { addr := s.pc, we := false, data := w } ::
        match decodeInstr w with
        | .error _ => []
        | .ok i => execAccesses i s'

/-- What an access does to memory: a read changes nothing, a write stores its word (R53, R54). -/
def Memory.apply (m : Memory) (b : BusAccess) : Memory :=
  if b.we then m.write (signed b.addr).toNat b.data else m

end Sys2Proof.Machine
end

