-- ==== Sys2Proof/Machine/Run.lean ====
section
/-! DEFINITION. The run loop under fuel (spec/40_step_cycle.md R110, spec/70_reset_and_hazards.md R234, R235). -/

namespace Sys2Proof.Machine

/-- How a run under fuel ended. -/
inductive RunEnd where
  /-- The halted flag is set: the final state of the run (R234). -/
  | halted (s : State)
  /-- The fuel ran out while the machine was running: no result (R235). -/
  | outOfFuel (s : State)
  /-- A step stopped by a fault of the model. No step does. -/
  | fault (r : Fault)
  /-- A step stopped by a refusal of the model. No step does. -/
  | refused (r : Refusal)
  deriving DecidableEq, Repr

/-- `run()`: while not halted, perform one step (R110), at most `fuel` times (R235). -/
def runLoop : Nat → State → RunEnd
  | 0, s => if s.err.halted then .halted s else .outOfFuel s
  | fuel + 1, s =>
    if s.err.halted then .halted s
    else
      match step s with
      | .next t => runLoop fuel t
      | .fault r => .fault r
      | .refused r => .refused r

end Sys2Proof.Machine
end

