-- ==== Sys2Proof/WellFormed.lean ====
section
/-! DEFINITION. Which operand bytes are register indices, and when each of them names a register
(spec/30_encoding.md R87, spec/10_state.md R22, R35). An instruction that is not well formed still encodes, decodes and
executes (R92): it raises `AddressFault` (R195). -/

namespace Sys2Proof

/-- The operand bytes the instruction uses as register indices, operand1 first (R87). -/
def Instr.registerOperands : Instr → List Byte
  | .nop _ _ => []
  | .hlt _ _ => []
  | .ldm source target => [source, target]
  | .ldq target _ => [target]
  | .wrm location value => [location, value]
  | .add dest source => [dest, source]
  | .adq dest _ => [dest]

/-- The operand bytes of the registers the instruction reads, as the table of R22 has them. -/
def Instr.registersRead : Instr → List Byte
  | .nop _ _ => []
  | .hlt _ _ => []
  | .ldm source _ => [source]
  | .ldq _ _ => []
  | .wrm location value => [location, value]
  | .add dest source => [dest, source]
  | .adq dest _ => [dest]

/-- The operand byte of the register the instruction writes, as the table of R22 has it. -/
def Instr.registerWritten : Instr → Option Byte
  | .nop _ _ => none
  | .hlt _ _ => none
  | .ldm _ target => some target
  | .ldq target _ => some target
  | .wrm _ _ => none
  | .add dest _ => some dest
  | .adq dest _ => some dest

/-- The byte names an entry of the register file: 0 to 15 are r0 to r15, 16 is the program counter (R26, R35). -/
def namesRegister (b : Byte) : Bool := decide (b.toNat < Config.regfileLen)

/-- Every register operand names a register, so that executing the instruction raises no register fault (R195). -/
def Instr.wellFormed (i : Instr) : Bool := i.registerOperands.all namesRegister

/-- The instruction writes the program counter: it is a transfer of control (R176). -/
def Instr.writesPc (i : Instr) : Bool := i.registerWritten == some (BitVec.ofNat 8 Config.pcIndex)

end Sys2Proof
end

