-- ==== Sys2Proof/Safety.lean ====
section
/-! DEFINITION. The terms claims are made in: the invariant of the machine, the engine states, the ways a run ends
(spec/10_state.md R29, R31; spec/70_reset_and_hazards.md R234), and what a step leaves unchanged. -/

namespace Sys2Proof.Machine

/-- What every state of a run satisfies: memory canonical and no longer than R5 admits, and a combination of flags that
a run can reach (R27, R29). -/
abbrev State.Inv (s : State) : Prop := s.mem.wf = true ∧ s.err.wf = true

/-- The engine state Running (R31). -/
abbrev State.Running (s : State) : Prop := s.err.halted = false

/-- The engine state Halted (R31). -/
abbrev State.Halted (s : State) : Prop := s.err.halted = true

/-- The run ended by HLT: `ERR = 2` (R234). -/
abbrev State.CleanHalt (s : State) : Prop := s.err.mask = 2

/-- The run ended by an exceptional condition: `ERR = 3` or `ERR = 6` (R234). -/
abbrev State.ErrorHalt (s : State) : Prop := s.err.mask = 3 ∨ s.err.mask = 6

/-- Every register, the program counter among them, reads as before. -/
def SameRegs (s t : State) : Prop := ∀ j : RegIndex, t.readReg j = s.readReg j

/-- Every register but one reads as before. -/
def SameRegsBut (d : RegIndex) (s t : State) : Prop := ∀ j : RegIndex, j ≠ d → t.readReg j = s.readReg j

/-- Memory has the same length and every cell reads as before. -/
def SameMem (s t : State) : Prop := t.mem.words = s.mem.words ∧ ∀ a : Nat, t.mem.read a = s.mem.read a

/-- Memory has the same length and every cell but one reads as before. -/
def SameMemBut (a : Nat) (s t : State) : Prop :=
  t.mem.words = s.mem.words ∧ ∀ b : Nat, b ≠ a → t.mem.read b = s.mem.read b

/-- The step took `AddressFault`: its flag and `HALTED` are set, and nothing else differs (R191, R193). -/
def TookAddressFault (s t : State) : Prop :=
  SameRegs s t ∧ SameMem s t ∧
    t.err.addrFault = true ∧ t.err.halted = true ∧ t.err.unknownOpcode = s.err.unknownOpcode

/-- The step took `UnknownOpcode`: its flag and `HALTED` are set, and nothing else differs (R191, R192). -/
def TookUnknownOpcode (s t : State) : Prop :=
  SameRegs s t ∧ SameMem s t ∧
    t.err.unknownOpcode = true ∧ t.err.halted = true ∧ t.err.addrFault = s.err.addrFault

/-- The word the next step fetches, where its program counter is in range (R111). -/
abbrev State.FetchesWord (s : State) (w : Word) : Prop :=
  s.Running ∧ s.mem.inRange (signed s.pc) = true ∧ s.mem.read (signed s.pc).toNat = w

/-- The instruction the next step executes. -/
abbrev State.FetchesInstr (s : State) (i : Instr) : Prop :=
  s.Running ∧ s.mem.inRange (signed s.pc) = true ∧ decodeInstr (s.mem.read (signed s.pc).toNat) = .ok i

/-- The state the execute phase begins in: the program counter advanced by 1, everything else as it was (R24, R114). -/
def State.afterFetch (s : State) : State := s.writeReg pcReg (s.pc + 1)

/-- `n` steps lead from `s` to `t`. -/
def Reaches : Nat → State → State → Prop
  | 0, s, t => s = t
  | n + 1, s, t => ∃ u, step s = .next u ∧ Reaches n u t

end Sys2Proof.Machine
end

