-- ==== Sys2Proof/Certificates/Slice0/Obligations.lean ====
section
/-! DEFINITION. The statements about the model, for the provers. Each docstring names the rule it formalises. -/

open Sys2Proof Sys2Proof.Machine

/-! ### Encoding -/

/-- R84: the round-trip law of the three fields, in both directions. -/
def Obligations.FieldsRoundTripBothWays : Prop :=
  (∀ f : Fields, decodeFields (encodeFields f) = f) ∧ ∀ w : Word, encodeFields (decodeFields w) = w

/-- R82: the fields of any word, by bit number and by the integer formulas, all three unsigned. -/
def Obligations.DecodedFieldsAreUnsignedSlices : Prop :=
  ∀ w : Word,
    (∀ k < 16, (decodeFields w).opcode.getLsbD k = w.getLsbD k) ∧
    (∀ k < 8, (decodeFields w).operand2.getLsbD k = w.getLsbD (16 + k)) ∧
    (∀ k < 8, (decodeFields w).operand1.getLsbD k = w.getLsbD (24 + k)) ∧
    ((decodeFields w).opcode.toNat : Int) = signed w % 4294967296 % 65536 ∧
    ((decodeFields w).operand2.toNat : Int) = signed w % 4294967296 / 65536 % 256 ∧
    ((decodeFields w).operand1.toNat : Int) = signed w % 4294967296 / 16777216

/-- R83: the encoding formula, and that the word is negative when operand1 is 128 or more. -/
def Obligations.EncodedWordIsFormula : Prop :=
  ∀ f : Fields,
    encodeFields f = pattern (f.operand1.toNat * 16777216 + f.operand2.toNat * 65536 + f.opcode.toNat) ∧
    (128 ≤ f.operand1.toNat → signed (encodeFields f) < 0)

/-- R84 and R85 at the level of instructions: decoding and encoding are inverse to each other, for every instruction with
every operand byte and for every word that is an instruction. -/
def Obligations.DecodeAndEncodeAreInverse : Prop :=
  (∀ i : Instr, decodeInstr (encodeInstr i) = .ok i) ∧
  ∀ (w : Word) (i : Instr), decodeInstr w = .ok i → encodeInstr i = w

/-- R86: each instruction has mask `0x0000FFFF` and match equal to its opcode number (R85), and a word that matches none is
no instruction, bits 15..8 counting. -/
def Obligations.MaskedOpcodeSelectsInstr : Prop :=
  ∀ w : Word,
    ((∃ a b, decodeInstr w = .ok (.nop a b)) ↔ w &&& 0x0000FFFF#32 = 0) ∧
    ((∃ a b, decodeInstr w = .ok (.hlt a b)) ↔ w &&& 0x0000FFFF#32 = 1) ∧
    ((∃ a b, decodeInstr w = .ok (.ldm a b)) ↔ w &&& 0x0000FFFF#32 = 2) ∧
    ((∃ a b, decodeInstr w = .ok (.ldq a b)) ↔ w &&& 0x0000FFFF#32 = 3) ∧
    ((∃ a b, decodeInstr w = .ok (.wrm a b)) ↔ w &&& 0x0000FFFF#32 = 4) ∧
    ((∃ a b, decodeInstr w = .ok (.add a b)) ↔ w &&& 0x0000FFFF#32 = 5) ∧
    ((∃ a b, decodeInstr w = .ok (.adq a b)) ↔ w &&& 0x0000FFFF#32 = 6) ∧
    ((∃ e, decodeInstr w = .error e) ↔ 6 < (w &&& 0x0000FFFF#32).toNat)

/-- The words of `95_test_vectors.md` section 2.1, one or more for each family. -/
def Obligations.SpecWordsDecode : Prop :=
  decodeInstr 0xFFFF0000#32 = .ok (.nop 255 255) ∧
  decodeInstr 0x12340001#32 = .ok (.hlt 18 52) ∧
  decodeInstr 0x01030002#32 = .ok (.ldm 1 3) ∧
  decodeInstr 0x80000002#32 = .ok (.ldm 128 0) ∧
  decodeInstr 0x10FF0003#32 = .ok (.ldq 16 255) ∧
  decodeInstr 0x00010004#32 = .ok (.wrm 0 1) ∧
  decodeInstr 0x0F0F0005#32 = .ok (.add 15 15) ∧
  decodeInstr 0xFFFF0006#32 = .ok (.adq 255 255) ∧
  decodeInstr 0x00000100#32 = .error (.unrecognisedOpcode 256)

/-! ### Arithmetic and memory -/

/-- R153, the law of `add32`: the exact sum modulo `2^32`, signed and unsigned alike, commutative, associative, with
identity 0 and an inverse for every word. -/
def Obligations.Add32IsModularAddition : Prop :=
  ∀ a b c : Word,
    signed (add32 a b) = (signed a + signed b).bmod 4294967296 ∧
    (add32 a b).toNat = (a.toNat + b.toNat) % 4294967296 ∧
    add32 a b = add32 b a ∧
    add32 (add32 a b) c = add32 a (add32 b c) ∧
    add32 a 0 = a ∧
    add32 a (pattern (-signed a)) = 0

/-- R54: after a store to a valid address that cell holds the word and every other cell is unchanged. -/
def Obligations.StoreChangesOneCell : Prop :=
  ∀ (m : Memory) (a : Nat) (v : Word), m.wf = true → a < m.words →
    (m.write a v).words = m.words ∧
    (m.write a v).read a = v ∧
    ∀ b : Nat, b ≠ a → (m.write a v).read b = m.read b

/-- Two canonical memories of one length that read the same everywhere are the same data. -/
def Obligations.MemoryIsItsReads : Prop :=
  ∀ m m' : Memory, m.wf = true → m'.wf = true → m.words = m'.words →
    (∀ a : Nat, m.read a = m'.read a) → m = m'

/-- R52: a word is a valid address exactly when its signed value is in `[0, MEM_WORDS)`; reading it as unsigned would
classify the same words. -/
def Obligations.ValidAddressIsSignedInRange : Prop :=
  ∀ (kind : AddressKind) (m : Memory) (w : Word), m.wf = true →
    ((0 ≤ signed w ∧ signed w < (m.words : Int)) ↔ w.toNat < m.words) ∧
    (w.toNat < m.words → memIndex kind m w = .ok (signed w).toNat) ∧
    (m.words ≤ w.toNat → memIndex kind m w = .error (.addressFault kind (signed w)))

/-! ### Instructions -/

/-- R130: NOP, with any operand bytes, has no effect; the step as a whole advances the program counter. -/
def Obligations.NopHasNoEffect : Prop :=
  ∀ (op1 op2 : Byte) (s : State),
    decodeInstr (op1 ++ op2 ++ 0#16) = .ok (.nop op1 op2) ∧
    exec (.nop op1 op2) s = .next s ∧
    (s.FetchesWord (op1 ++ op2 ++ 0#16) → step s = .next (s.writeReg pcReg (s.pc + 1)))

/-- R131: HLT, with any operand bytes, sets `ERR.HALTED` and nothing else; a run that ends by HLT ends with `ERR = 2` and
the program counter one past the HLT. -/
def Obligations.HltSetsOnlyHalted : Prop :=
  ∀ (op1 op2 : Byte) (s : State),
    decodeInstr (op1 ++ op2 ++ 1#16) = .ok (.hlt op1 op2) ∧
    (∃ t, exec (.hlt op1 op2) s = .next t ∧ SameRegs s t ∧ SameMem s t ∧
      t.err.halted = true ∧ t.err.unknownOpcode = s.err.unknownOpcode ∧ t.err.addrFault = s.err.addrFault) ∧
    (s.Inv → s.FetchesWord (op1 ++ op2 ++ 1#16) →
      ∃ t, step s = .next t ∧ t.err.mask = 2 ∧ t.pc = s.pc + 1 ∧ SameRegsBut pcReg s t ∧ SameMem s t)

/-- R140: LDM, every form: the load with its frame, and the faults. -/
def Obligations.LdmLoadsAddressedWord : Prop :=
  ∀ (source target : Byte) (s : State),
    decodeInstr (source ++ target ++ 2#16) = .ok (.ldm source target) ∧
    (∀ (hs : source.toNat < 17) (ht : target.toNat < 17),
      (s.mem.inRange (signed (s.readReg ⟨source.toNat, hs⟩)) = true →
        ∃ t, exec (.ldm source target) s = .next t ∧
          t.readReg ⟨target.toNat, ht⟩ = s.mem.read (signed (s.readReg ⟨source.toNat, hs⟩)).toNat ∧
          SameRegsBut ⟨target.toNat, ht⟩ s t ∧ SameMem s t ∧ t.err = s.err) ∧
      (s.mem.inRange (signed (s.readReg ⟨source.toNat, hs⟩)) = false →
        ∃ t, exec (.ldm source target) s = .next t ∧ TookAddressFault s t)) ∧
    (17 ≤ source.toNat ∨ 17 ≤ target.toNat →
      ∃ t, exec (.ldm source target) s = .next t ∧ TookAddressFault s t)

/-- R141: WRM, every form: the store with its frame, and the faults. The cell stored to is the one the meaning computes,
the signed value of the location register before the instruction. -/
def Obligations.WrmStoresRegister : Prop :=
  ∀ (location value : Byte) (s : State), s.mem.wf = true →
    decodeInstr (location ++ value ++ 4#16) = .ok (.wrm location value) ∧
    (∀ (hl : location.toNat < 17) (hv : value.toNat < 17),
      (s.mem.inRange (signed (s.readReg ⟨location.toNat, hl⟩)) = true →
        ∃ t, exec (.wrm location value) s = .next t ∧
          t.mem.read (signed (s.readReg ⟨location.toNat, hl⟩)).toNat = s.readReg ⟨value.toNat, hv⟩ ∧
          SameMemBut (signed (s.readReg ⟨location.toNat, hl⟩)).toNat s t ∧ SameRegs s t ∧ t.err = s.err) ∧
      (s.mem.inRange (signed (s.readReg ⟨location.toNat, hl⟩)) = false →
        ∃ t, exec (.wrm location value) s = .next t ∧ TookAddressFault s t)) ∧
    (17 ≤ location.toNat ∨ 17 ≤ value.toNat →
      ∃ t, exec (.wrm location value) s = .next t ∧ TookAddressFault s t)

/-- R150: LDQ, every form: the register holds the byte, 0 to 255, and the rest is unchanged; a bad index faults. -/
def Obligations.LdqLoadsZeroExtendedByte : Prop :=
  ∀ (target imm : Byte) (s : State),
    decodeInstr (target ++ imm ++ 3#16) = .ok (.ldq target imm) ∧
    (∀ ht : target.toNat < 17,
      ∃ t, exec (.ldq target imm) s = .next t ∧
        signed (t.readReg ⟨target.toNat, ht⟩) = (imm.toNat : Int) ∧
        SameRegsBut ⟨target.toNat, ht⟩ s t ∧ SameMem s t ∧ t.err = s.err) ∧
    (17 ≤ target.toNat → ∃ t, exec (.ldq target imm) s = .next t ∧ TookAddressFault s t)

/-- R151: ADD, every form: the sum modulo `2^32` of the two old values, no flag, and the rest is unchanged; a bad index
faults. -/
def Obligations.AddStoresWrappedSum : Prop :=
  ∀ (dest source : Byte) (s : State),
    decodeInstr (dest ++ source ++ 5#16) = .ok (.add dest source) ∧
    (∀ (hd : dest.toNat < 17) (hs : source.toNat < 17),
      ∃ t, exec (.add dest source) s = .next t ∧
        t.readReg ⟨dest.toNat, hd⟩ = s.readReg ⟨dest.toNat, hd⟩ + s.readReg ⟨source.toNat, hs⟩ ∧
        SameRegsBut ⟨dest.toNat, hd⟩ s t ∧ SameMem s t ∧ t.err = s.err) ∧
    (17 ≤ dest.toNat ∨ 17 ≤ source.toNat →
      ∃ t, exec (.add dest source) s = .next t ∧ TookAddressFault s t)

/-- R152: ADQ, every form: the byte added as an unsigned number modulo `2^32`, no flag, and the rest is unchanged; a bad
index faults. -/
def Obligations.AdqAddsUnsignedByte : Prop :=
  ∀ (dest imm : Byte) (s : State),
    decodeInstr (dest ++ imm ++ 6#16) = .ok (.adq dest imm) ∧
    (∀ hd : dest.toNat < 17,
      ∃ t, exec (.adq dest imm) s = .next t ∧
        (t.readReg ⟨dest.toNat, hd⟩).toNat = ((s.readReg ⟨dest.toNat, hd⟩).toNat + imm.toNat) % 4294967296 ∧
        SameRegsBut ⟨dest.toNat, hd⟩ s t ∧ SameMem s t ∧ t.err = s.err) ∧
    (17 ≤ dest.toNat → ∃ t, exec (.adq dest imm) s = .next t ∧ TookAddressFault s t)

/-- R22, the column of registers written: the execute phase changes no register but the one the table names. -/
def Obligations.OnlyTableRegisterChanges : Prop :=
  ∀ (i : Instr) (s t : State), exec i s = .next t →
    ∀ j : RegIndex, i.registerWritten ≠ some (BitVec.ofNat 8 j.val) → t.readReg j = s.readReg j

/-- R22, the column of registers read: a register the table does not name as read has no influence on the execute phase,
but that it keeps its own value where it is not written. -/
def Obligations.UnreadRegisterHasNoInfluence : Prop :=
  ∀ (i : Instr) (s t : State) (j : RegIndex) (v : Word),
    BitVec.ofNat 8 j.val ∉ i.registersRead → exec i s = .next t →
    ∃ t', exec i (s.writeReg j v) = .next t' ∧ t'.err = t.err ∧ t'.mem = t.mem ∧
      (∀ k : RegIndex, k ≠ j → t'.readReg k = t.readReg k) ∧
      (t'.readReg j = v ∨ t'.readReg j = t.readReg j)

/-! ### The step -/

/-- R111 to R114: when the word at the program counter decodes to an instruction, the step is that instruction's execute phase
in the state whose program counter is one higher and which is otherwise the same. -/
def Obligations.StepRunsDecodedInstr : Prop :=
  ∀ (s : State) (i : Instr), s.FetchesInstr i → step s = exec i (s.writeReg pcReg (s.pc + 1))

/-- Every step answers a next state: no fault and no refusal of the model, in any state (the model's form, log 5; in
Halted the model's choice, log 4). -/
def Obligations.StepAlwaysAnswersNext : Prop := ∀ s : State, ∃ t, step s = .next t

/-- An instruction placed by `withFetchWord` is the one the next step runs (the model's loading, log 2). -/
def Obligations.PlacedInstrIsTheOneRun : Prop :=
  ∀ (s : State) (i : Instr), s.Inv → s.Running → s.mem.inRange (signed s.pc) = true →
    step (s.withFetchWord 32 (encodeInstr i).toNat) =
      exec i (State.afterFetch (s.withFetchWord 32 (encodeInstr i).toNat))

/-- R171: an instruction that does not write `x[16]` leaves the program counter at the next address. -/
def Obligations.SequentialFlowAdvancesByOne : Prop :=
  ∀ (s t : State) (i : Instr), s.FetchesInstr i → i.writesPc = false → step s = .next t → t.pc = s.pc + 1

/-- R172: `LDQ pc, k` is an absolute jump to `k`, among the first 256 words. -/
def Obligations.LdqPcJumpsAbsolute : Prop :=
  ∀ (s : State) (k : Byte), s.FetchesWord (16#8 ++ k ++ 3#16) →
    ∃ t, step s = .next t ∧ signed t.pc = (k.toNat : Int) ∧ signed t.pc < 256 ∧
      SameRegsBut pcReg s t ∧ SameMem s t ∧ t.err = s.err

/-- R173: `ADQ pc, k` skips `k` words: the next address is one more than its own plus `k`. -/
def Obligations.AdqPcSkipsForward : Prop :=
  ∀ (s : State) (k : Byte), s.FetchesWord (16#8 ++ k ++ 6#16) →
    ∃ t, step s = .next t ∧ t.pc = s.pc + 1 + k.setWidth 32 ∧
      (signed s.pc + 1 + (k.toNat : Int) < 2147483648 → signed t.pc = signed s.pc + 1 + (k.toNat : Int)) ∧
      SameRegsBut pcReg s t ∧ SameMem s t ∧ t.err = s.err

/-- R174: `ADD pc, rs` jumps relative to the next address by a register, `ADD pc, pc` doubles the next address, and
`ADD rd, pc` adds the next address to `x[d]` without a transfer of control. -/
def Obligations.AddPcJumpsRelative : Prop :=
  ∀ (s : State) (r : RegIndex), r ≠ pcReg →
    (s.FetchesWord (16#8 ++ BitVec.ofNat 8 r.val ++ 5#16) →
      ∃ t, step s = .next t ∧ t.pc = s.pc + 1 + s.readReg r ∧
        SameRegsBut pcReg s t ∧ SameMem s t ∧ t.err = s.err) ∧
    (s.FetchesWord (16#8 ++ 16#8 ++ 5#16) →
      ∃ t, step s = .next t ∧ t.pc = 2 * s.pc + 2 ∧
        SameRegsBut pcReg s t ∧ SameMem s t ∧ t.err = s.err) ∧
    (s.FetchesWord (BitVec.ofNat 8 r.val ++ 16#8 ++ 5#16) →
      ∃ t, step s = .next t ∧ t.pc = s.pc + 1 ∧ t.readReg r = s.readReg r + (s.pc + 1) ∧
        (∀ j : RegIndex, j ≠ r → j ≠ pcReg → t.readReg j = s.readReg j) ∧ SameMem s t ∧ t.err = s.err)

/-- R175: `LDM rs, pc` jumps to the word in memory that `x[s]` addresses; where that address is out of range it faults and
the program counter stays at the next address. -/
def Obligations.LdmPcJumpsIndirect : Prop :=
  ∀ (s : State) (r : RegIndex), r ≠ pcReg → s.FetchesWord (BitVec.ofNat 8 r.val ++ 16#8 ++ 2#16) →
    (s.mem.inRange (signed (s.readReg r)) = true →
      ∃ t, step s = .next t ∧ t.pc = s.mem.read (signed (s.readReg r)).toNat ∧
        SameRegsBut pcReg s t ∧ SameMem s t ∧ t.err = s.err) ∧
    (s.mem.inRange (signed (s.readReg r)) = false →
      ∃ t, step s = .next t ∧ t.pc = s.pc + 1 ∧ SameRegsBut pcReg s t ∧ SameMem s t ∧
        t.err.addrFault = true ∧ t.err.halted = true ∧ t.err.unknownOpcode = s.err.unknownOpcode)

/-- R64: a WRM to the address of the very next instruction determines the word that the next step fetches. -/
def Obligations.StoreIsSeenByNextFetch : Prop :=
  ∀ (s : State) (location value : Byte) (hl : location.toNat < 17) (hv : value.toNat < 17),
    s.mem.wf = true → s.FetchesInstr (.wrm location value) →
    (State.afterFetch s).readReg ⟨location.toNat, hl⟩ = s.pc + 1 →
    s.mem.inRange (signed (s.pc + 1)) = true →
    ∃ t, step s = .next t ∧ t.FetchesWord ((State.afterFetch s).readReg ⟨value.toNat, hv⟩)

/-- R142: a successful LDM after a successful WRM to the same address returns the word stored. -/
def Obligations.LoadReturnsStoredWord : Prop :=
  ∀ (s : State) (location value target : Byte) (hl : location.toNat < 17) (hv : value.toNat < 17)
    (ht : target.toNat < 17),
    s.mem.wf = true → s.mem.inRange (signed (s.readReg ⟨location.toNat, hl⟩)) = true →
    ∃ t u, exec (.wrm location value) s = .next t ∧ exec (.ldm location target) t = .next u ∧
      u.readReg ⟨target.toNat, ht⟩ = s.readReg ⟨value.toNat, hv⟩ ∧ u.err = s.err

/-- R58, R240: one step makes at most two accesses, the fetch read first; only a WRM writes; and memory after the step is
memory before it with exactly the accesses of the step applied. -/
def Obligations.MemoryFollowsPortAccesses : Prop :=
  ∀ s t : State, step s = .next t →
    (busAccesses s).length ≤ 2 ∧
    t.mem = (busAccesses s).foldl Memory.apply s.mem ∧
    (∀ b ∈ (busAccesses s).head?, b.addr = s.pc ∧ b.we = false) ∧
    ∀ b ∈ busAccesses s, b.we = true → ∃ location value, s.FetchesInstr (.wrm location value)

/-- R61: along any run a cell keeps its word as long as no step's port access stores to it. -/
def Obligations.CellKeepsWordUntilStored : Prop :=
  ∀ (n : Nat) (s t : State) (a : Nat), s.Inv → Reaches n s t →
    (∀ k < n, ∀ u, Reaches k s u → ∀ b ∈ busAccesses u, b.we = true → (signed b.addr).toNat ≠ a) →
    t.mem.read a = s.mem.read a

/-- R32: the length of memory is the same all along a run. -/
def Obligations.MemoryLengthIsFixed : Prop :=
  ∀ (n : Nat) (s t : State), Reaches n s t → t.mem.words = s.mem.words

/-! ### Exceptions and halting -/

/-- R191: `raise` sets the flag of its cause and `HALTED`, and changes nothing else. -/
def Obligations.RaiseSetsFlagsOnly : Prop :=
  ∀ s : State,
    (∀ w : Word, TookUnknownOpcode s (raise (.unknownOpcode w) s)) ∧
    ∀ (kind : AddressKind) (v : Int), TookAddressFault s (raise (.addressFault kind v) s)

/-- R192: a word whose opcode field is above 6 halts the machine with the unknown-opcode flag: `ERR = 3`, the program counter one
past the word, everything else as before. -/
def Obligations.UnknownOpcodeHalts : Prop :=
  ∀ (s : State) (w : Word), s.Inv → s.FetchesWord w → 6 < w.toNat % 65536 →
    ∃ t, step s = .next t ∧ t.err.mask = 3 ∧ t.pc = s.pc + 1 ∧ SameRegsBut pcReg s t ∧ SameMem s t

/-- R194: a fetch outside memory halts the machine with `ERR = 6`; the program counter keeps the bad address and nothing
else changes. With no memory at all the first step does so. -/
def Obligations.FetchFaultKeepsPc : Prop :=
  (∀ s : State, s.Inv → s.Running → s.mem.inRange (signed s.pc) = false →
    ∃ t, step s = .next t ∧ t.err.mask = 6 ∧ SameRegs s t ∧ SameMem s t) ∧
  ∀ mem : Memory, mem.words = 0 →
    ∃ t, step (State.resetWith mem) = .next t ∧ t.err.mask = 6 ∧ t.pc = 0

/-- R198: the condition a step raises is the first met: fetch address, opcode, operand1's index, operand2's index, data
address. -/
def Obligations.FirstConditionMetIsRaised : Prop :=
  ∀ s : State, s.Running →
    (s.mem.inRange (signed s.pc) = false → stepCause s = some (.addressFault .fetch (signed s.pc))) ∧
    (∀ w : Word, s.FetchesWord w → 6 < w.toNat % 65536 → stepCause s = some (.unknownOpcode w)) ∧
    (∀ (i : Instr) (b : Byte), s.FetchesInstr i →
      i.registerOperands.find? (fun c => !namesRegister c) = some b →
      stepCause s = some (.addressFault .register (b.toNat : Int))) ∧
    (∀ (i : Instr) (b c : Byte) (hb : b.toNat < 17), s.FetchesInstr i → i = .ldm b c ∨ i = .wrm b c →
      i.wellFormed = true →
      s.mem.inRange (signed ((State.afterFetch s).readReg ⟨b.toNat, hb⟩)) = false →
      stepCause s = some (.addressFault .data (signed ((State.afterFetch s).readReg ⟨b.toNat, hb⟩))))

/-- R190: the flags after a step are those of the condition it raised, and no error flag is set where it raised none. -/
def Obligations.FlagsRecordRaisedCondition : Prop :=
  ∀ s t : State, s.Inv → s.Running → step s = .next t →
    match stepCause s with
    | none => t.err.unknownOpcode = false ∧ t.err.addrFault = false
    | some (.unknownOpcode _) => t.err.mask = 3
    | some (.addressFault _ _) => t.err.mask = 6

/-- R197: an error halt is precise: no general-purpose register and no memory cell has changed, and the program counter is
one past the faulting word, or at the bad address of a failed fetch. -/
def Obligations.ErrorHaltsArePrecise : Prop :=
  ∀ s t : State, s.Inv → s.Running → step s = .next t → t.ErrorHalt →
    SameRegsBut pcReg s t ∧ SameMem s t ∧
    t.pc = if s.mem.inRange (signed s.pc) then s.pc + 1 else s.pc

/-- R131, R234: a step ends the run cleanly exactly when it executes a HLT. -/
def Obligations.OnlyHltHaltsCleanly : Prop :=
  ∀ s t : State, s.Inv → s.Running → step s = .next t →
    (t.CleanHalt ↔ ∃ op1 op2, s.FetchesInstr (.hlt op1 op2))

/-- R29: no flag of `ERR` is cleared along a run. -/
def Obligations.FlagsAreNeverCleared : Prop :=
  ∀ (n : Nat) (s t : State), Reaches n s t →
    (s.err.unknownOpcode = true → t.err.unknownOpcode = true) ∧
    (s.err.halted = true → t.err.halted = true) ∧
    (s.err.addrFault = true → t.err.addrFault = true)

/-- R28: the positions of the flags in the mask, and its values along every run from reset, whatever the memory. -/
def Obligations.MaskValuesAlongRuns : Prop :=
  (∀ e : Err, e.mask.testBit 0 = e.unknownOpcode ∧ e.mask.testBit 1 = e.halted ∧ e.mask.testBit 2 = e.addrFault ∧
    ∀ k ≥ 3, e.mask.testBit k = false) ∧
  ∀ (mem : Memory) (n : Nat) (t : State), Reaches n (State.resetWith mem) t →
    t.err.mask = 0 ∨ t.err.mask = 2 ∨ t.err.mask = 3 ∨ t.err.mask = 6

/-- R31, R118: in Halted nothing changes, however long the machine is stepped (that a step is answered at all there is the
model's choice, log 4). -/
def Obligations.HaltedStateIsFrozen : Prop :=
  ∀ (n : Nat) (s : State), s.Halted → Reaches n s s

/-- R110, R234, R235: the run loop ends in a halted state exactly when the steps lead there, and reports running out of fuel
exactly when the machine is still running (it relies on log 4, a halted state stepping to itself). -/
def Obligations.RunLoopFollowsSteps : Prop :=
  ∀ (n : Nat) (s t : State),
    (runLoop n s = .halted t ↔ Reaches n s t ∧ t.Halted) ∧
    (runLoop n s = .outOfFuel t ↔ Reaches n s t ∧ t.Running)

/-- R179: a run in which no executed instruction writes `x[16]` ends within `MEM_WORDS - pc + 1` steps, whatever memory
holds. The statement says that after exactly that many calls of `step` the state is halted: a run that halts earlier is
carried over the remaining calls by a halted state stepping to itself, which is the model's choice (log 4) and no step of
the hardware. -/
def Obligations.RunWithoutJumpsEnds : Prop :=
  ∀ s : State, s.Inv → 0 ≤ signed s.pc → signed s.pc ≤ (s.mem.words : Int) →
    (∀ (n : Nat) (u : State) (i : Instr), Reaches n s u → u.FetchesInstr i → i.writesPc = false) →
    ∃ t, Reaches (s.mem.words - (signed s.pc).toNat + 1) s t ∧ t.Halted

/-! ### Reset, the invariant and the host -/

/-- R34: the state after reset, whatever the memory, and the zero words of memory built from a size. -/
def Obligations.ResetGivesStatedValues : Prop :=
  (∀ mem : Memory, (∀ j : RegIndex, (State.resetWith mem).readReg j = 0) ∧ (State.resetWith mem).pc = 0 ∧
    (State.resetWith mem).err.halted = false ∧ (State.resetWith mem).err.unknownOpcode = false ∧
    (State.resetWith mem).err.addrFault = false ∧ (State.resetWith mem).mem = mem) ∧
  ∀ n a : Nat, (Memory.ofSize n).words = n ∧ (Memory.ofSize n).read a = 0

/-- R231: the reset event clears the registers and `ERR` in any state, Halted or not, and leaves memory alone. -/
def Obligations.ResetEventKeepsMemory : Prop :=
  ∀ s : State, (∀ j : RegIndex, s.resetEvent.readReg j = 0) ∧ s.resetEvent.err.mask = 0 ∧
    s.resetEvent.Running ∧ SameMem s s.resetEvent

/-- The invariant holds at reset, of every canonical memory. -/
def Obligations.ResetHasInvariant : Prop :=
  State.reset.Inv ∧ ∀ mem : Memory, mem.wf = true → (State.resetWith mem).Inv

/-- Every step keeps the invariant: memory stays canonical and within its length, and the flags stay a combination that R27
and R29 allow. -/
def Obligations.StepKeepsInvariant : Prop :=
  ∀ s t : State, s.Inv → step s = .next t → t.Inv

/-- R66: memory built from words is canonical and holds them in order, and the dump is the full snapshot in order. -/
def Obligations.HostBuildsAndDumpsMemory : Prop :=
  (∀ ws : List Word, ws.length ≤ 2147483648 →
    (Memory.ofWords ws).wf = true ∧ (Memory.ofWords ws).words = ws.length ∧
    ∀ a : Nat, (Memory.ofWords ws).read a = ws.getD a 0) ∧
  ∀ m : Memory, m.dump.length = m.words ∧ ∀ a < m.words, m.dump[a]? = some (a, m.read a)

/-- R242: in Halted the host reads every register and memory (log 7 says what it gets otherwise). -/
def Obligations.HostReadsHaltedState : Prop :=
  ∀ s : State, s.Halted →
    (∀ j : RegIndex, s.debugReg (BitVec.ofNat 5 j.val) = some (s.readReg j)) ∧ s.hostDump = some s.mem.dump
end

