-- ==== Sys2Proof/Laws/Memory.lean ====
section
/-! SUPPORT. Every memory operation keeps memory's canonical form (R54), and reset's memory has it. -/

namespace Sys2Proof.Machine

/-- Canonical cells from a later address on are canonical cells from an earlier one on. -/
theorem cellsWf_of_le {words low low' : Nat} {cells : List MemCell} (h : cellsWf words low cells = true)
    (hl : low' ≤ low) : cellsWf words low' cells = true := by
  cases cells with
  | nil => rfl
  | cons c rest =>
    obtain ⟨a, w⟩ := c
    simp only [cellsWf, Bool.and_eq_true, decide_eq_true_eq] at h ⊢
    exact ⟨⟨hl.trans h.1.1, h.1.2⟩, h.2⟩

/-- A valid cell in front of canonical cells with greater addresses. -/
theorem cellsWf_consCell {words low a : Nat} {v : Word} {cells : List MemCell} (hl : low ≤ a) (ha : a < words)
    (h : cellsWf words (a + 1) cells = true) : cellsWf words low (consCell a v cells) = true := by
  unfold consCell
  split
  · exact cellsWf_of_le h (by omega)
  · simp_all [cellsWf]

/-- A store of any word to a valid address keeps cells canonical. -/
theorem cellsWf_writeCells {words a : Nat} (v : Word) (ha : a < words) :
    ∀ (cells : List MemCell) (low : Nat), low ≤ a → cellsWf words low cells = true →
      cellsWf words low (writeCells cells a v) = true := by
  intro cells
  induction cells with
  | nil => intro low hl _; exact cellsWf_consCell hl ha rfl
  | cons c rest ih =>
    obtain ⟨b, w⟩ := c
    intro low hl h
    have h' := h
    simp only [cellsWf, Bool.and_eq_true, decide_eq_true_eq] at h'
    obtain ⟨⟨hb, hbw, hw⟩, hr⟩ := h'
    unfold writeCells
    split
    · next hab =>
      refine cellsWf_consCell hl ha ?_
      simp only [cellsWf, Bool.and_eq_true, decide_eq_true_eq]
      exact ⟨⟨by omega, hbw, hw⟩, hr⟩
    · split
      · next hab => subst hab; exact cellsWf_consCell hl ha hr
      · have := ih (b + 1) (by omega) hr
        simp only [cellsWf, Bool.and_eq_true, decide_eq_true_eq]
        exact ⟨⟨hb, hbw, hw⟩, this⟩

@[simp] theorem Memory.write_words (m : Memory) (a : Nat) (v : Word) : (m.write a v).words = m.words := rfl
@[simp] theorem Memory.write_inRange (m : Memory) (a : Nat) (v : Word) (z : Int) :
    (m.write a v).inRange z = m.inRange z := rfl

/-- A store to a valid address keeps the canonical form. -/
theorem Memory.write_wf {m : Memory} {a : Nat} (v : Word) (h : m.wf = true) (ha : a < m.words) :
    (m.write a v).wf = true := by
  simp only [Memory.wf, Bool.and_eq_true] at h ⊢
  exact ⟨h.1, cellsWf_writeCells v ha m.cells 0 (Nat.zero_le a) h.2⟩

/-- A port access to a valid address keeps the canonical form. -/
theorem Memory.apply_wf {m : Memory} {b : BusAccess} (h : m.wf = true)
    (hb : b.we = true → (signed b.addr).toNat < m.words) : (m.apply b).wf = true := by
  unfold Memory.apply
  split
  · next he => exact Memory.write_wf _ h (hb he)
  · exact h

/-- Memory built from a size is canonical. -/
theorem Memory.ofSize_wf {n : Nat} (h : n ≤ Config.maxMemWords) : (Memory.ofSize n).wf = true := by
  simp only [Memory.wf, Memory.ofSize, cellsWf, Bool.and_true]
  exact decide_eq_true h

/-- Reset's memory is canonical. -/
theorem reset_mem_wf : State.reset.mem.wf = true := Memory.ofSize_wf (le_refl _)

/-- A memory index that is in range is below the length. -/
theorem Memory.toNat_lt_of_inRange {m : Memory} {a : Int} (h : m.inRange a = true) : a.toNat < m.words := by
  simp only [Memory.inRange, decide_eq_true_eq] at h
  omega

end Sys2Proof.Machine
end

