-- ==== Sys2Proof/Laws/State.lean ====
section
/-! SUPPORT. One lemma for each field and each update of the state, so that no proof unfolds a record update. -/

namespace Sys2Proof.Machine

/-! ### The error/halt mask -/

@[simp] theorem Err.setHalted_halted (e : Err) : e.setHalted.halted = true := rfl
@[simp] theorem Err.setHalted_unknownOpcode (e : Err) : e.setHalted.unknownOpcode = e.unknownOpcode := rfl
@[simp] theorem Err.setHalted_addrFault (e : Err) : e.setHalted.addrFault = e.addrFault := rfl
@[simp] theorem Err.setUnknownOpcode_halted (e : Err) : e.setUnknownOpcode.halted = e.halted := rfl
@[simp] theorem Err.setUnknownOpcode_unknownOpcode (e : Err) : e.setUnknownOpcode.unknownOpcode = true := rfl
@[simp] theorem Err.setUnknownOpcode_addrFault (e : Err) : e.setUnknownOpcode.addrFault = e.addrFault := rfl
@[simp] theorem Err.setAddrFault_halted (e : Err) : e.setAddrFault.halted = e.halted := rfl
@[simp] theorem Err.setAddrFault_unknownOpcode (e : Err) : e.setAddrFault.unknownOpcode = e.unknownOpcode := rfl
@[simp] theorem Err.setAddrFault_addrFault (e : Err) : e.setAddrFault.addrFault = true := rfl

@[simp] theorem Cause.setFlags_unknownOpcode (w : Word) (e : Err) :
    (Cause.unknownOpcode w).setFlags e = e.setUnknownOpcode.setHalted := rfl
@[simp] theorem Cause.setFlags_addressFault (k : AddressKind) (v : Int) (e : Err) :
    (Cause.addressFault k v).setFlags e = e.setAddrFault.setHalted := rfl
@[simp] theorem Cause.setFlags_halted (c : Cause) (e : Err) : (c.setFlags e).halted = true := by
  cases c <;> rfl

/-! ### Registers -/

@[simp] theorem State.writeReg_err (s : State) (i : RegIndex) (v : Word) : (s.writeReg i v).err = s.err := rfl
@[simp] theorem State.writeReg_mem (s : State) (i : RegIndex) (v : Word) : (s.writeReg i v).mem = s.mem := rfl

/-- A register reads as what was last written to it, whatever was written to another. -/
theorem State.readReg_writeReg (s : State) (i j : RegIndex) (v : Word) :
    (s.writeReg i v).readReg j = if j = i then v else s.readReg j := by
  unfold State.readReg State.writeReg
  by_cases h : j = i
  · subst h; simp
  · have h' : i.val ≠ j.val := fun e => h (Fin.ext e.symm)
    simp [h, h']

@[simp] theorem State.readReg_writeReg_self (s : State) (i : RegIndex) (v : Word) :
    (s.writeReg i v).readReg i = v := by simp [State.readReg_writeReg]

theorem State.readReg_writeReg_ne (s : State) {i j : RegIndex} (v : Word) (h : j ≠ i) :
    (s.writeReg i v).readReg j = s.readReg j := by simp [State.readReg_writeReg, h]

/-- A later write to the same register covers an earlier one. -/
@[simp] theorem State.writeReg_writeReg_self (s : State) (i : RegIndex) (v v' : Word) :
    (s.writeReg i v).writeReg i v' = s.writeReg i v' := by
  unfold State.writeReg
  congr 1
  ext k hk
  by_cases h : i.val = k <;> simp [h]

/-- Writes to two registers commute. -/
theorem State.writeReg_comm (s : State) {i j : RegIndex} (v v' : Word) (h : i ≠ j) :
    (s.writeReg i v).writeReg j v' = (s.writeReg j v').writeReg i v := by
  have h' : i.val ≠ j.val := fun e => h (Fin.ext e)
  unfold State.writeReg
  congr 1
  ext k hk
  simp only [Vector.getElem_set]
  by_cases hi : i.val = k <;> by_cases hj : j.val = k <;> simp_all

@[simp] theorem State.pc_writeReg_pcReg (s : State) (v : Word) : (s.writeReg pcReg v).pc = v :=
  State.readReg_writeReg_self s pcReg v

@[simp] theorem State.addToReg_err (s : State) (i : RegIndex) (v : Word) : (s.addToReg i v).err = s.err := rfl
@[simp] theorem State.addToReg_mem (s : State) (i : RegIndex) (v : Word) : (s.addToReg i v).mem = s.mem := rfl

/-! ### The other updates -/

@[simp] theorem State.withErr_readReg (s : State) (e : Err) (i : RegIndex) :
    (s.withErr e).readReg i = s.readReg i := rfl
@[simp] theorem State.withErr_pc (s : State) (e : Err) : (s.withErr e).pc = s.pc := rfl
@[simp] theorem State.withErr_err (s : State) (e : Err) : (s.withErr e).err = e := rfl
@[simp] theorem State.withErr_mem (s : State) (e : Err) : (s.withErr e).mem = s.mem := rfl

@[simp] theorem State.withMem_readReg (s : State) (m : Memory) (i : RegIndex) :
    (s.withMem m).readReg i = s.readReg i := rfl
@[simp] theorem State.withMem_pc (s : State) (m : Memory) : (s.withMem m).pc = s.pc := rfl
@[simp] theorem State.withMem_err (s : State) (m : Memory) : (s.withMem m).err = s.err := rfl
@[simp] theorem State.withMem_mem (s : State) (m : Memory) : (s.withMem m).mem = m := rfl

@[simp] theorem raise_readReg (c : Cause) (s : State) (i : RegIndex) : (raise c s).readReg i = s.readReg i := rfl
@[simp] theorem raise_pc (c : Cause) (s : State) : (raise c s).pc = s.pc := rfl
@[simp] theorem raise_mem (c : Cause) (s : State) : (raise c s).mem = s.mem := rfl
@[simp] theorem raise_err (c : Cause) (s : State) : (raise c s).err = c.setFlags s.err := rfl

@[simp] theorem State.resetWith_mem (m : Memory) : (State.resetWith m).mem = m := rfl
@[simp] theorem State.resetWith_err (m : Memory) : (State.resetWith m).err = Err.clear := rfl
@[simp] theorem State.resetEvent_mem (s : State) : s.resetEvent.mem = s.mem := rfl
@[simp] theorem State.resetEvent_err (s : State) : s.resetEvent.err = Err.clear := rfl

end Sys2Proof.Machine
end

