-- ==== Sys2Proof/Laws/Operands.lean ====
section
/-! SUPPORT. What the primitives, the operand forms and the end of a phase can do, each said once. -/

namespace Sys2Proof.Machine

/-- `add32` is addition of bit vectors (R153). -/
theorem add32_eq_add (a b : Word) : add32 a b = a + b := by
  simp [add32, pattern, signed, BitVec.ofInt_add]

/-- An immediate is the byte's unsigned value (R88). -/
theorem immediate_toNat (b : Byte) : (immediate b).toNat = b.toNat := by
  have := b.isLt
  simp only [immediate, zext32, BitVec.toNat_setWidth]
  omega

theorem regIndex_of_lt {b : Byte} (h : b.toNat < Config.regfileLen) : regIndex b = .ok ⟨b.toNat, h⟩ := dif_pos h

theorem regIndex_of_ge {b : Byte} (h : Config.regfileLen ≤ b.toNat) :
    regIndex b = .error (.addressFault .register (b.toNat : Int)) := dif_neg (Nat.not_lt.mpr h)

/-- The register check answers the entry the byte names, or raises a register fault. -/
theorem regIndex_cases (b : Byte) :
    (∃ h : b.toNat < Config.regfileLen, regIndex b = .ok ⟨b.toNat, h⟩) ∨
      (Config.regfileLen ≤ b.toNat ∧ regIndex b = .error (.addressFault .register (b.toNat : Int))) := by
  by_cases h : b.toNat < Config.regfileLen
  · exact .inl ⟨h, regIndex_of_lt h⟩
  · exact .inr ⟨Nat.not_lt.mp h, regIndex_of_ge (Nat.not_lt.mp h)⟩

theorem memIndex_of_inRange {m : Memory} {w : Word} (kind : AddressKind) (h : m.inRange (signed w) = true) :
    memIndex kind m w = .ok (signed w).toNat := if_pos h

theorem memIndex_of_not_inRange {m : Memory} {w : Word} (kind : AddressKind) (h : m.inRange (signed w) = false) :
    memIndex kind m w = .error (.addressFault kind (signed w)) := by simp [memIndex, h]

/-- The range check answers the index of a cell, or raises its kind of fault. -/
theorem memIndex_cases (kind : AddressKind) (m : Memory) (w : Word) :
    (m.inRange (signed w) = true ∧ memIndex kind m w = .ok (signed w).toNat) ∨
      (m.inRange (signed w) = false ∧ memIndex kind m w = .error (.addressFault kind (signed w))) := by
  cases h : m.inRange (signed w) with
  | true => exact .inl ⟨rfl, memIndex_of_inRange kind h⟩
  | false => exact .inr ⟨rfl, memIndex_of_not_inRange kind h⟩

/-- The end of a phase that answers next: its own state, or the exception taken in the state it began in. -/
theorem complete_next {s t : State} {r : Except Cause State} (h : complete s r = .next t) :
    r = .ok t ∨ ∃ c, r = .error c ∧ t = raise c s := by
  cases r with
  | ok u => simp only [complete, Host.Outcome.next.injEq] at h; exact .inl (by rw [h])
  | error c => simp only [complete, Host.Outcome.next.injEq] at h; exact .inr ⟨c, rfl, h.symm⟩

/-- The end of a phase always answers next. -/
theorem complete_answers_next (s : State) (r : Except Cause State) : ∃ t, complete s r = .next t := by
  cases r <;> exact ⟨_, rfl⟩

end Sys2Proof.Machine
end

