-- ==== Sys2Proof/Laws/PerInstr.lean ====
section
/-! SUPPORT. The per-instruction family: the low 16 bits of an instruction's word are its opcode number, which is at most 6
(spec/30_encoding.md R81, R85). -/

namespace Sys2Proof.Laws.OpcodeField

/-- The opcode field of the instruction's word is the opcode number of its constructor, one of the seven. -/
def Statement (i : Instr) : Prop :=
  (encodeInstr i).extractLsb' 0 16 = (fieldsOfInstr i).opcode ∧ (fieldsOfInstr i).opcode.toNat ≤ 6

/-- The opcode field of encoded fields is the opcode. -/
theorem extract_opcode (f : Fields) : (encodeFields f).extractLsb' 0 16 = f.opcode := by
  apply BitVec.eq_of_getLsbD_eq
  intro k hk
  rw [BitVec.getLsbD_extractLsb', Nat.zero_add, encodeFields, BitVec.getLsbD_cast, BitVec.getLsbD_append]
  simp [hk]

theorem nop (op1 op2 : Byte) : Statement (.nop op1 op2) := ⟨extract_opcode _, by simp [fieldsOfInstr]⟩
theorem hlt (op1 op2 : Byte) : Statement (.hlt op1 op2) := ⟨extract_opcode _, by simp [fieldsOfInstr]⟩
theorem ldm (source target : Byte) : Statement (.ldm source target) := ⟨extract_opcode _, by simp [fieldsOfInstr]⟩
theorem ldq (target imm : Byte) : Statement (.ldq target imm) := ⟨extract_opcode _, by simp [fieldsOfInstr]⟩
theorem wrm (location value : Byte) : Statement (.wrm location value) := ⟨extract_opcode _, by simp [fieldsOfInstr]⟩
theorem add (dest source : Byte) : Statement (.add dest source) := ⟨extract_opcode _, by simp [fieldsOfInstr]⟩
theorem adq (dest imm : Byte) : Statement (.adq dest imm) := ⟨extract_opcode _, by simp [fieldsOfInstr]⟩

end Sys2Proof.Laws.OpcodeField
end

