-- ==== Sys2Proof/Laws/Run.lean ====
section
/-! SUPPORT. Runs of many steps: how `Reaches` unfolds at either end. -/

namespace Sys2Proof.Machine

theorem reaches_zero {s t : State} : Reaches 0 s t ↔ s = t := Iff.rfl

/-- A run of `n + 1` steps is one step and then a run of `n`. -/
theorem reaches_succ {n : Nat} {s t : State} : Reaches (n + 1) s t ↔ ∃ u, step s = .next u ∧ Reaches n u t := Iff.rfl

/-- A run of `n + 1` steps is a run of `n` and then one step. -/
theorem reaches_succ_last {n : Nat} {s t : State} :
    Reaches (n + 1) s t ↔ ∃ u, Reaches n s u ∧ step u = .next t := by
  induction n generalizing s with
  | zero => simp only [reaches_succ, reaches_zero, exists_eq_right, exists_eq_left']
  | succ n ih =>
    rw [reaches_succ]
    constructor
    · rintro ⟨u, h1, h2⟩
      obtain ⟨w, h3, h4⟩ := ih.1 h2
      exact ⟨w, reaches_succ.2 ⟨u, h1, h3⟩, h4⟩
    · rintro ⟨u, h1, h2⟩
      obtain ⟨w, h3, h4⟩ := reaches_succ.1 h1
      exact ⟨w, h3, ih.2 ⟨u, h4, h2⟩⟩

end Sys2Proof.Machine
end

