-- ==== Sys2Proof/Laws/Step.lean ====
section
/-! SUPPORT. What an effect, a fetch and a step can do, each said once: the provers cite these and do not unfold the
machine again. -/

namespace Sys2Proof.Machine

/-- What the effect of LDM can answer. -/
theorem ldmEffect_cases (source target : Byte) (s : State) :
    (∃ (i t : RegIndex), regIndex source = .ok i ∧ regIndex target = .ok t ∧
      s.mem.inRange (signed (s.readReg i)) = true ∧
      ldmEffect source target s = .ok (s.writeReg t (s.mem.read (signed (s.readReg i)).toNat))) ∨
    ∃ (k : AddressKind) (v : Int), ldmEffect source target s = .error (.addressFault k v) := by
  rcases regIndex_cases source with ⟨hi, h1⟩ | ⟨_, h1⟩
  · rcases regIndex_cases target with ⟨ht, h2⟩ | ⟨_, h2⟩
    · rcases memIndex_cases .data s.mem (s.readReg ⟨source.toNat, hi⟩) with ⟨hr, h3⟩ | ⟨_, h3⟩
      · exact .inl ⟨_, _, h1, h2, hr, by simp only [ldmEffect, h1, h2, h3, bind, Except.bind]; rfl⟩
      · exact .inr ⟨_, _, by simp only [ldmEffect, h1, h2, h3, bind, Except.bind]; rfl⟩
    · exact .inr ⟨_, _, by simp only [ldmEffect, h1, h2, bind, Except.bind]; rfl⟩
  · exact .inr ⟨_, _, by simp only [ldmEffect, h1, bind, Except.bind]; rfl⟩

/-- What the effect of WRM can answer. -/
theorem wrmEffect_cases (location value : Byte) (s : State) :
    (∃ (l r : RegIndex), regIndex location = .ok l ∧ regIndex value = .ok r ∧
      s.mem.inRange (signed (s.readReg l)) = true ∧
      wrmEffect location value s =
        .ok (s.withMem (s.mem.write (signed (s.readReg l)).toNat (s.readReg r)))) ∨
    ∃ (k : AddressKind) (v : Int), wrmEffect location value s = .error (.addressFault k v) := by
  rcases regIndex_cases location with ⟨hl, h1⟩ | ⟨_, h1⟩
  · rcases regIndex_cases value with ⟨hr, h2⟩ | ⟨_, h2⟩
    · rcases memIndex_cases .data s.mem (s.readReg ⟨location.toNat, hl⟩) with ⟨ha, h3⟩ | ⟨_, h3⟩
      · exact .inl ⟨_, _, h1, h2, ha, by simp only [wrmEffect, h1, h2, h3, bind, Except.bind]; rfl⟩
      · exact .inr ⟨_, _, by simp only [wrmEffect, h1, h2, h3, bind, Except.bind]; rfl⟩
    · exact .inr ⟨_, _, by simp only [wrmEffect, h1, h2, bind, Except.bind]; rfl⟩
  · exact .inr ⟨_, _, by simp only [wrmEffect, h1, bind, Except.bind]; rfl⟩

/-- What the effect of LDQ can answer. -/
theorem ldqEffect_cases (target imm : Byte) (s : State) :
    (∃ r : RegIndex, regIndex target = .ok r ∧ ldqEffect target imm s = .ok (s.writeReg r (immediate imm))) ∨
    ∃ (k : AddressKind) (v : Int), ldqEffect target imm s = .error (.addressFault k v) := by
  rcases regIndex_cases target with ⟨hr, h1⟩ | ⟨_, h1⟩
  · exact .inl ⟨_, h1, by simp only [ldqEffect, h1, bind, Except.bind]; rfl⟩
  · exact .inr ⟨_, _, by simp only [ldqEffect, h1, bind, Except.bind]; rfl⟩

/-- What the effect of ADD can answer. -/
theorem addEffect_cases (dest source : Byte) (s : State) :
    (∃ (d r : RegIndex), regIndex dest = .ok d ∧ regIndex source = .ok r ∧
      addEffect dest source s = .ok (s.addToReg d (s.readReg r))) ∨
    ∃ (k : AddressKind) (v : Int), addEffect dest source s = .error (.addressFault k v) := by
  rcases regIndex_cases dest with ⟨hd, h1⟩ | ⟨_, h1⟩
  · rcases regIndex_cases source with ⟨hr, h2⟩ | ⟨_, h2⟩
    · exact .inl ⟨_, _, h1, h2, by simp only [addEffect, h1, h2, bind, Except.bind]; rfl⟩
    · exact .inr ⟨_, _, by simp only [addEffect, h1, h2, bind, Except.bind]; rfl⟩
  · exact .inr ⟨_, _, by simp only [addEffect, h1, bind, Except.bind]; rfl⟩

/-- What the effect of ADQ can answer. -/
theorem adqEffect_cases (dest imm : Byte) (s : State) :
    (∃ r : RegIndex, regIndex dest = .ok r ∧ adqEffect dest imm s = .ok (s.addToReg r (immediate imm))) ∨
    ∃ (k : AddressKind) (v : Int), adqEffect dest imm s = .error (.addressFault k v) := by
  rcases regIndex_cases dest with ⟨hr, h1⟩ | ⟨_, h1⟩
  · exact .inl ⟨_, h1, by simp only [adqEffect, h1, bind, Except.bind]; rfl⟩
  · exact .inr ⟨_, _, by simp only [adqEffect, h1, bind, Except.bind]; rfl⟩

/-- What the execute phase of any instruction can answer: it changes `ERR` (HLT), one register, one cell or nothing, or it
takes an addressing fault in the state it began in. -/
theorem exec_cases (i : Instr) (s t : State) (h : exec i s = .next t) :
    t = s ∨ (∃ op1 op2, i = .hlt op1 op2 ∧ t = s.withErr s.err.setHalted) ∨
    (∃ (d : RegIndex) (v : Word), t = s.writeReg d v) ∨
    (∃ (l r : RegIndex), s.mem.inRange (signed (s.readReg l)) = true ∧
      t = s.withMem (s.mem.write (signed (s.readReg l)).toNat (s.readReg r))) ∨
    ∃ (k : AddressKind) (v : Int), t = raise (.addressFault k v) s := by
  cases i with
  | nop op1 op2 => simp only [exec, execNop, Host.Outcome.next.injEq] at h; exact .inl h.symm
  | hlt op1 op2 =>
    simp only [exec, execHlt, Host.Outcome.next.injEq] at h
    exact .inr (.inl ⟨op1, op2, rfl, h.symm⟩)
  | ldm source target =>
    simp only [exec, execLdm] at h
    rcases ldmEffect_cases source target s with ⟨i, d, _, _, _, e⟩ | ⟨k, v, e⟩ <;>
      simp only [e, complete, Host.Outcome.next.injEq] at h
    · exact .inr (.inr (.inl ⟨d, _, h.symm⟩))
    · exact .inr (.inr (.inr (.inr ⟨k, v, h.symm⟩)))
  | ldq target imm =>
    simp only [exec, execLdq] at h
    rcases ldqEffect_cases target imm s with ⟨d, _, e⟩ | ⟨k, v, e⟩ <;>
      simp only [e, complete, Host.Outcome.next.injEq] at h
    · exact .inr (.inr (.inl ⟨d, _, h.symm⟩))
    · exact .inr (.inr (.inr (.inr ⟨k, v, h.symm⟩)))
  | wrm location value =>
    simp only [exec, execWrm] at h
    rcases wrmEffect_cases location value s with ⟨l, r, _, _, ha, e⟩ | ⟨k, v, e⟩ <;>
      simp only [e, complete, Host.Outcome.next.injEq] at h
    · exact .inr (.inr (.inr (.inl ⟨l, r, ha, h.symm⟩)))
    · exact .inr (.inr (.inr (.inr ⟨k, v, h.symm⟩)))
  | add dest source =>
    simp only [exec, execAdd] at h
    rcases addEffect_cases dest source s with ⟨d, r, _, _, e⟩ | ⟨k, v, e⟩ <;>
      simp only [e, complete, Host.Outcome.next.injEq] at h
    · exact .inr (.inr (.inl ⟨d, _, h.symm⟩))
    · exact .inr (.inr (.inr (.inr ⟨k, v, h.symm⟩)))
  | adq dest imm =>
    simp only [exec, execAdq] at h
    rcases adqEffect_cases dest imm s with ⟨d, _, e⟩ | ⟨k, v, e⟩ <;>
      simp only [e, complete, Host.Outcome.next.injEq] at h
    · exact .inr (.inr (.inl ⟨d, _, h.symm⟩))
    · exact .inr (.inr (.inr (.inr ⟨k, v, h.symm⟩)))

theorem fetch_of_inRange {s : State} (h : s.mem.inRange (signed s.pc) = true) :
    fetch s = .ok (s.mem.read (signed s.pc).toNat, s.writeReg pcReg (s.pc + 1)) := by
  simp only [fetch, memIndex_of_inRange .fetch h, bind, Except.bind, State.addToReg, add32_eq_add]
  rfl

theorem fetch_of_not_inRange {s : State} (h : s.mem.inRange (signed s.pc) = false) :
    fetch s = .error (.addressFault .fetch (signed s.pc)) := by
  simp only [fetch, memIndex_of_not_inRange .fetch h, bind, Except.bind]

theorem step_of_halted {s : State} (h : s.err.halted = true) : step s = .next s := by simp [step, h]

/-- Once the machine runs, the step is the fault of its fetch, the unknown-opcode handler, or the execute phase of the
instruction fetched. -/
theorem step_cases (s : State) (h : s.err.halted = false) :
    (s.mem.inRange (signed s.pc) = false ∧ step s = .next (raise (.addressFault .fetch (signed s.pc)) s)) ∨
    (s.mem.inRange (signed s.pc) = true ∧
      (∃ e, decodeInstr (s.mem.read (signed s.pc).toNat) = .error e) ∧
      step s = .next (raise (.unknownOpcode (s.mem.read (signed s.pc).toNat)) (s.writeReg pcReg (s.pc + 1)))) ∨
    (s.mem.inRange (signed s.pc) = true ∧
      ∃ i, decodeInstr (s.mem.read (signed s.pc).toNat) = .ok i ∧
        step s = exec i (s.writeReg pcReg (s.pc + 1))) := by
  cases hr : s.mem.inRange (signed s.pc) with
  | false => exact .inl ⟨rfl, by simp [step, h, fetch_of_not_inRange hr]⟩
  | true =>
    cases hd : decodeInstr (s.mem.read (signed s.pc).toNat) with
    | error e =>
      exact .inr (.inl ⟨rfl, ⟨e, rfl⟩, by simp [step, h, fetch_of_inRange hr, hd, execUnrecognised]⟩)
    | ok i =>
      exact .inr (.inr ⟨rfl, i, rfl, by simp [step, h, fetch_of_inRange hr, hd]⟩)

end Sys2Proof.Machine
end

