-- ==== Sys2Proof/Tests/Slice0.lean ====
section
/-! SUPPORT. The model's own tests, with expected results from spec/95_test_vectors.md, and a witness for the hypotheses of
each statement that has any. -/

namespace Sys2Proof.Tests

open Sys2Proof Sys2Proof.Machine

/-- Memory of a length with a few cells set. -/
def memOf (words : Nat) (cells : List (Nat × Word)) : Memory :=
  cells.foldl (fun m c => m.write c.1 c.2) (Memory.ofSize words)

/-- A running state with a few registers set, a program counter and a memory. -/
def stateOf (regs : List (RegIndex × Word)) (pc : Word) (mem : Memory) : State :=
  (regs.foldl (fun s r => s.writeReg r.1 r.2) (State.resetWith mem)).writeReg pcReg pc

/-- The test passes on the next state, if the outcome is one. -/
def nextIs (o : Host.Outcome State Fault Refusal) (p : State → Bool) : Bool :=
  match o with
  | .next t => p t
  | .fault _ => false
  | .refused _ => false

theorem exists_of_nextIs {o : Host.Outcome State Fault Refusal} {p : State → Bool} (h : nextIs o p = true) :
    ∃ t, o = .next t ∧ p t = true := by
  cases o with
  | next t => exact ⟨t, rfl, h⟩
  | fault r => exact nomatch r
  | refused r => exact nomatch h

/-! ### Well-formedness: each check refuses an ill-formed term -/

theorem test_wellFormed_ldm_source : (Instr.ldm 17 3).wellFormed = false := by decide
theorem test_wellFormed_ldm_target : (Instr.ldm 1 200).wellFormed = false := by decide
theorem test_wellFormed_ldq_target : (Instr.ldq 17 1).wellFormed = false := by decide
theorem test_wellFormed_wrm_location : (Instr.wrm 17 0).wellFormed = false := by decide
theorem test_wellFormed_wrm_value : (Instr.wrm 0 17).wellFormed = false := by decide
theorem test_wellFormed_add_dest : (Instr.add 32 1).wellFormed = false := by decide
theorem test_wellFormed_add_source : (Instr.add 1 17).wellFormed = false := by decide
theorem test_wellFormed_adq_dest : (Instr.adq 17 1).wellFormed = false := by decide
theorem test_wellFormed_boundary : (Instr.add 16 16).wellFormed = true ∧ (Instr.ldq 16 255).wellFormed = true ∧
    (Instr.nop 255 255).wellFormed = true := by decide

/-! ### Decoding: words written out bit by bit from R81 and R85 (vectors of section 2.1) -/

theorem test_decode_nop : decodeInstr 0b11111111_11111111_0000000000000000#32 = .ok (.nop 255 255) := by decide
theorem test_decode_hlt : decodeInstr 0b00010010_00110100_0000000000000001#32 = .ok (.hlt 18 52) := by decide
theorem test_decode_ldm : decodeInstr 0b00000001_00000011_0000000000000010#32 = .ok (.ldm 1 3) := by decide
theorem test_decode_ldq : decodeInstr 0b00010000_11111111_0000000000000011#32 = .ok (.ldq 16 255) := by decide
theorem test_decode_wrm : decodeInstr 0b00000000_00000001_0000000000000100#32 = .ok (.wrm 0 1) := by decide
theorem test_decode_add : decodeInstr 0b00001111_00001111_0000000000000101#32 = .ok (.add 15 15) := by decide
theorem test_decode_adq : decodeInstr 0b11111111_11111111_0000000000000110#32 = .ok (.adq 255 255) := by decide
theorem test_decode_high_operand : decodeInstr 0x80000002#32 = .ok (.ldm 128 0) := by decide
theorem test_decode_opcode_bits_15_8 : decodeInstr 0x00000100#32 = .error (.unrecognisedOpcode 256) := by decide
theorem test_decode_opcode_7 : decodeInstr 0xFFFF0007#32 = .error (.unrecognisedOpcode 7) := by decide
theorem test_encode_wrm_pc_pc : encodeInstr (.wrm 16 16) = 0x10100004#32 := by decide
theorem test_encode_ldq : encodeInstr (.ldq 0 6) = 0x00060003#32 := by decide
theorem test_decodeTableWord : decodeTableWord 32 0x00040006 = some (.adq 0 4) ∧ decodeTableWord 32 7 = none := by decide

/-! ### Steps (vectors of sections 2.2 to 2.7) -/

/-- Section 2.3: a NOP with operand bytes 255 does not fault. -/
theorem test_step_nop : nextIs (step (stateOf [] 7 (memOf 16 [(7, 0xFFFF0000)])))
    (fun t => t.pc == 8 && t.err.mask == 0) = true := by decide

/-- Section 2.3: a HLT with operand bytes 17 halts cleanly. -/
theorem test_step_hlt : nextIs (step (stateOf [] 0 (memOf 16 [(0, 0x11110001)])))
    (fun t => t.pc == 1 && t.err.mask == 2) = true := by decide

/-- Section 2.4: `LDM r1, r1` loads the whole word into the register that held the address. -/
theorem test_step_ldm_same_register :
    nextIs (step (stateOf [(1, 20)] 0 (memOf 32 [(0, 0x01010002), (20, 0xFFFFFFFF)])))
      (fun t => t.readReg 1 == 0xFFFFFFFF && t.err.mask == 0) = true := by decide

/-- Section 2.4: `LDM r1, r3` with the address one past the last cell. -/
theorem test_step_ldm_out_of_range :
    nextIs (step (stateOf [(1, 32), (3, 5)] 0 (memOf 32 [(0, 0x01030002)])))
      (fun t => t.readReg 3 == 5 && t.pc == 1 && t.err.mask == 6) = true := by decide

/-- Section 2.4: `WRM r0, r1`, the store of the source's sample program. -/
theorem test_step_wrm : nextIs (step (stateOf [(0, 10), (1, 5)] 0 (memOf 32 [(0, 0x00010004)])))
    (fun t => t.mem.read 10 == 5 && t.mem.read 0 == 0x00010004 && t.err.mask == 0) = true := by decide

/-- Section 2.4: `WRM r0, pc` stores the address of the next instruction. -/
theorem test_step_wrm_pc : nextIs (step (stateOf [(0, 12)] 0 (memOf 32 [(0, 0x00100004)])))
    (fun t => t.mem.read 12 == 1) = true := by decide

/-- Section 2.5: `LDQ r15, 255` loads 255, not -1. -/
theorem test_step_ldq : nextIs (step (stateOf [(15, 0xDEADBEEF)] 0 (memOf 4 [(0, 0x0FFF0003)])))
    (fun t => t.readReg 15 == 255 && t.pc == 1) = true := by decide

/-- Section 2.5: `LDQ <255>, 1` names no register. -/
theorem test_step_ldq_bad_index : nextIs (step (stateOf [] 0 (memOf 4 [(0, 0xFF010003)])))
    (fun t => t.pc == 1 && t.err.mask == 6) = true := by decide

/-- Section 2.5: `ADD r1, r2` wraps without a flag. -/
theorem test_step_add_wraps : nextIs (step (stateOf [(1, 0x7FFFFFFF), (2, 1)] 0 (memOf 4 [(0, 0x01020005)])))
    (fun t => t.readReg 1 == 0x80000000 && t.readReg 2 == 1 && t.err.mask == 0) = true := by decide

/-- Section 2.6: `ADD pc, r0` at 5 with -7 in r0 leaves a bad target in the program counter, unchecked. -/
theorem test_step_add_pc : nextIs (step (stateOf [(0, 0xFFFFFFF9)] 5 (memOf 64 [(5, 0x10000005)])))
    (fun t => t.pc == 0xFFFFFFFF && t.err.mask == 0) = true := by decide

/-- Section 2.5: `ADQ r0, 255` adds an unsigned byte to -1. -/
theorem test_step_adq : nextIs (step (stateOf [(0, 0xFFFFFFFF)] 0 (memOf 4 [(0, 0x00FF0006)])))
    (fun t => t.readReg 0 == 254) = true := by decide

/-- Section 2.6: `ADQ pc, 2` at 5 skips two words. -/
theorem test_step_adq_pc : nextIs (step (stateOf [] 5 (memOf 64 [(5, 0x10020006)])))
    (fun t => t.pc == 8) = true := by decide

/-- Section 2.7: an unknown opcode with operand bytes 255 gives 3, not 6. -/
theorem test_step_unknown_opcode : nextIs (step (stateOf [] 0 (memOf 4 [(0, 0xFFFF0007)])))
    (fun t => t.pc == 1 && t.err.mask == 3) = true := by decide

/-- Section 2.2: a fetch at `MEM_WORDS` faults and keeps the program counter. -/
theorem test_step_fetch_fault : nextIs (step (stateOf [] 4 (memOf 4 [])))
    (fun t => t.pc == 4 && t.err.mask == 6) = true := by decide

/-- Section 2.2: the program counter wraps at the end of the largest memory. -/
theorem test_step_pc_wraps : nextIs (step (stateOf [] 0x7FFFFFFF (memOf 2147483648 [])))
    (fun t => t.pc == 0x80000000 && t.err.mask == 0) = true := by decide

/-- The first instruction after reset, placed by `withFetchWord`: `LDQ r0, 6`. -/
theorem test_reset_runs_placed_word : nextIs (step (State.reset.withFetchWord 32 0x00060003))
    (fun t => t.readReg 0 == 6 && t.pc == 1 && t.err.mask == 0) = true := by decide

/-- Storing the zero word takes the cell out of the list again. -/
theorem test_write_zero_is_canonical : memOf 8 [(3, 7), (5, 9), (3, 0)] = memOf 8 [(5, 9)] := by decide

/-! ### Witnesses: hypotheses that can be met -/

/-- For `StoreChangesOneCell`: the first and the last address. -/
theorem test_witness_store_bounds : (memOf 8 [(3, 7)]).wf = true ∧ 0 < (memOf 8 [(3, 7)]).words ∧
    7 < (memOf 8 [(3, 7)]).words := by decide

/-- For `MemoryIsItsReads`. -/
theorem test_witness_memory_reads : (memOf 8 [(3, 7)]).wf = true ∧ ∀ a : Nat, (memOf 8 [(3, 7)]).read a =
    (memOf 8 [(3, 9), (3, 7)]).read a := ⟨by decide, fun a => by rw [show memOf 8 [(3, 9), (3, 7)] = memOf 8 [(3, 7)] by decide]⟩

/-- For `ValidAddressIsSignedInRange`: the last valid address, the first invalid one, a negative one. -/
theorem test_witness_address_bounds : (memOf 8 []).wf = true ∧ (7#32).toNat < (memOf 8 []).words ∧
    (memOf 8 []).words ≤ (8#32).toNat ∧ (memOf 8 []).words ≤ (0xFFFFFFFF#32).toNat := by decide

/-- For `NopHasNoEffect`. -/
theorem test_witness_nop : (stateOf [] 7 (memOf 16 [(7, 0xFFFF0000)])).FetchesWord (255#8 ++ 255#8 ++ 0#16) := by decide

/-- For `HltSetsOnlyHalted`. -/
theorem test_witness_hlt : (stateOf [] 4 (memOf 16 [(4, 1)])).Inv ∧
    (stateOf [] 4 (memOf 16 [(4, 1)])).FetchesWord (0#8 ++ 0#8 ++ 1#16) := by decide

/-- For `LdmLoadsAddressedWord` and `WrmStoresRegister`, with register 16 as the address: the last valid cell, the first invalid one, and the first byte that names
no register. -/
theorem test_witness_address_operand :
    (stateOf [] 31 (memOf 32 [])).mem.wf = true ∧
    (stateOf [] 31 (memOf 32 [])).mem.inRange (signed ((stateOf [] 31 (memOf 32 [])).readReg ⟨(16#8).toNat, by decide⟩)) = true ∧
    (stateOf [] 32 (memOf 32 [])).mem.wf = true ∧
    (stateOf [] 32 (memOf 32 [])).mem.inRange (signed ((stateOf [] 32 (memOf 32 [])).readReg ⟨(16#8).toNat, by decide⟩)) = false ∧
    17 ≤ (17#8).toNat := by decide

/-- For `LdqLoadsZeroExtendedByte`, `AddStoresWrappedSum` and `AdqAddsUnsignedByte`: the last byte that names a register and the first that names none. -/
theorem test_witness_register_operand : (16#8).toNat < 17 ∧ (0#8).toNat < 17 ∧ 17 ≤ (17#8).toNat ∧ 17 ≤ (255#8).toNat := by
  decide

/-- For `OnlyTableRegisterChanges`. -/
theorem test_witness_only_table_register : (Instr.ldq 3 9).registerWritten ≠ some (BitVec.ofNat 8 (4 : RegIndex).val) ∧
    ∃ t, exec (.ldq 3 9) (stateOf [(4, 8)] 0 (memOf 4 [])) = .next t ∧ (t.readReg 3 == 9) = true :=
  ⟨by decide, exists_of_nextIs (by decide)⟩

/-- For `UnreadRegisterHasNoInfluence`. -/
theorem test_witness_unread_register : BitVec.ofNat 8 (4 : RegIndex).val ∉ (Instr.add 3 2).registersRead ∧
    ∃ t, exec (.add 3 2) (stateOf [(2, 8)] 0 (memOf 4 [])) = .next t ∧ (t.readReg 3 == 8) = true :=
  ⟨by decide, exists_of_nextIs (by decide)⟩

/-- For `StepRunsDecodedInstr`. -/
theorem test_witness_step_runs_instr : (stateOf [] 2 (memOf 4 [(2, 0x01020005)])).FetchesInstr (.add 1 2) := by decide

/-- For `PlacedInstrIsTheOneRun`. -/
theorem test_witness_placed_instr : (stateOf [] 3 (memOf 4 [(1, 5)])).Inv ∧ (stateOf [] 3 (memOf 4 [(1, 5)])).Running ∧
    (stateOf [] 3 (memOf 4 [(1, 5)])).mem.inRange (signed (stateOf [] 3 (memOf 4 [(1, 5)])).pc) = true := by decide

/-- For `SequentialFlowAdvancesByOne`. -/
theorem test_witness_sequential : (stateOf [] 2 (memOf 4 [(2, 0x01020005)])).FetchesInstr (.add 1 2) ∧
    (Instr.add 1 2).writesPc = false ∧
    ∃ t, step (stateOf [] 2 (memOf 4 [(2, 0x01020005)])) = .next t ∧ (t.pc == 3) = true :=
  ⟨by decide, by decide, exists_of_nextIs (by decide)⟩

/-- For `LdqPcJumpsAbsolute`, `AdqPcSkipsForward` and the three clauses of `AddPcJumpsRelative`. -/
theorem test_witness_jump_words :
    (stateOf [] 0 (memOf 64 [(0, 0x100C0003)])).FetchesWord (16#8 ++ 12#8 ++ 3#16) ∧
    (stateOf [] 5 (memOf 64 [(5, 0x10020006)])).FetchesWord (16#8 ++ 2#8 ++ 6#16) ∧
    (0 : RegIndex) ≠ pcReg ∧
    (stateOf [] 5 (memOf 64 [(5, 0x10000005)])).FetchesWord (16#8 ++ BitVec.ofNat 8 (0 : RegIndex).val ++ 5#16) ∧
    (stateOf [] 5 (memOf 64 [(5, 0x10100005)])).FetchesWord (16#8 ++ 16#8 ++ 5#16) ∧
    (stateOf [] 0 (memOf 64 [(0, 0x01100005)])).FetchesWord (BitVec.ofNat 8 (1 : RegIndex).val ++ 16#8 ++ 5#16) := by decide

/-- For the last clause of `AdqPcSkipsForward`. -/
theorem test_witness_skip_without_wrap :
    signed (stateOf [] 5 (memOf 64 [(5, 0x10020006)])).pc + 1 + ((2#8).toNat : Int) < 2147483648 := by decide

/-- For `LdmPcJumpsIndirect`: a good address and the first bad one. -/
theorem test_witness_indirect_jump :
    (stateOf [(0, 20)] 5 (memOf 64 [(5, 0x00100002), (20, 33)])).FetchesWord
      (BitVec.ofNat 8 (0 : RegIndex).val ++ 16#8 ++ 2#16) ∧
    (memOf 64 [(5, 0x00100002), (20, 33)]).inRange
      (signed ((stateOf [(0, 20)] 5 (memOf 64 [(5, 0x00100002), (20, 33)])).readReg 0)) = true ∧
    (stateOf [(0, 64)] 5 (memOf 64 [(5, 0x00100002)])).FetchesWord
      (BitVec.ofNat 8 (0 : RegIndex).val ++ 16#8 ++ 2#16) ∧
    (memOf 64 [(5, 0x00100002)]).inRange
      (signed ((stateOf [(0, 64)] 5 (memOf 64 [(5, 0x00100002)])).readReg 0)) = false := by decide

/-- For `StoreIsSeenByNextFetch`: `WRM pc, r1` at 0, the store goes to the next instruction. -/
theorem test_witness_store_next :
    (memOf 32 [(0, 0x10010004)]).wf = true ∧
    (stateOf [(1, 1)] 0 (memOf 32 [(0, 0x10010004)])).FetchesInstr (.wrm 16 1) ∧
    (State.afterFetch (stateOf [(1, 1)] 0 (memOf 32 [(0, 0x10010004)]))).readReg ⟨(16#8).toNat, by decide⟩ =
      (stateOf [(1, 1)] 0 (memOf 32 [(0, 0x10010004)])).pc + 1 ∧
    (memOf 32 [(0, 0x10010004)]).inRange (signed ((stateOf [(1, 1)] 0 (memOf 32 [(0, 0x10010004)])).pc + 1)) = true := by
  decide

/-- For `LoadReturnsStoredWord`. -/
theorem test_witness_store_then_load : (memOf 32 []).wf = true ∧
    (memOf 32 []).inRange (signed ((stateOf [(1, 20), (2, 77)] 0 (memOf 32 [])).readReg ⟨(1#8).toNat, by decide⟩)) = true := by
  decide

/-- For `MemoryFollowsPortAccesses`, `MemoryLengthIsFixed` and `CellKeepsWordUntilStored`: a step that stores to cell 10, and
so a run of one step that does not store to cell 3. -/
theorem test_witness_port_and_run : ∃ t,
    step (stateOf [(0, 10), (1, 5)] 0 (memOf 32 [(0, 0x00010004)])) = .next t ∧ (t.mem.read 10 == 5) = true ∧
    Reaches 1 (stateOf [(0, 10), (1, 5)] 0 (memOf 32 [(0, 0x00010004)])) t ∧
    (stateOf [(0, 10), (1, 5)] 0 (memOf 32 [(0, 0x00010004)])).Inv ∧
    ∀ k < 1, ∀ u, Reaches k (stateOf [(0, 10), (1, 5)] 0 (memOf 32 [(0, 0x00010004)])) u →
      ∀ b ∈ busAccesses u, b.we = true → (signed b.addr).toNat ≠ 3 := by
  obtain ⟨t, h, p⟩ := exists_of_nextIs (o := step (stateOf [(0, 10), (1, 5)] 0 (memOf 32 [(0, 0x00010004)])))
    (p := fun t => t.mem.read 10 == 5) (by decide)
  refine ⟨t, h, p, reaches_succ.2 ⟨t, h, reaches_zero.2 rfl⟩, by decide, fun k hk u hu => ?_⟩
  obtain rfl : k = 0 := by omega
  rw [← reaches_zero.1 hu]
  decide

/-- For `UnknownOpcodeHalts`, with the least opcode that is none. -/
theorem test_witness_unknown_opcode : (stateOf [] 0 (memOf 4 [(0, 7)])).Inv ∧
    (stateOf [] 0 (memOf 4 [(0, 7)])).FetchesWord 7 ∧ 6 < (7 : Word).toNat % 65536 := by decide

/-- For `FetchFaultKeepsPc`: the first bad address, and no memory at all. -/
theorem test_witness_fetch_fault : (stateOf [] 4 (memOf 4 [])).Inv ∧ (stateOf [] 4 (memOf 4 [])).Running ∧
    (memOf 4 []).inRange (signed (stateOf [] 4 (memOf 4 [])).pc) = false ∧ (memOf 0 []).words = 0 := by decide

/-- For the register clause of `FirstConditionMetIsRaised`: operand1 bad, and operand2 bad with operand1 good. -/
theorem test_witness_priority_register :
    (stateOf [] 0 (memOf 4 [(0, 0x11110002)])).FetchesInstr (.ldm 17 17) ∧
    (Instr.ldm 17 17).registerOperands.find? (fun c => !namesRegister c) = some 17 ∧
    (stateOf [] 0 (memOf 4 [(0, 0x01C80002)])).FetchesInstr (.ldm 1 200) ∧
    (Instr.ldm 1 200).registerOperands.find? (fun c => !namesRegister c) = some 200 := by decide

/-- For the data clause of `FirstConditionMetIsRaised`. -/
theorem test_witness_priority_data :
    (stateOf [(0, 4)] 0 (memOf 4 [(0, 0x00010002)])).FetchesInstr (.ldm 0 1) ∧ (Instr.ldm 0 1).wellFormed = true ∧
    (memOf 4 [(0, 0x00010002)]).inRange (signed ((State.afterFetch
      (stateOf [(0, 4)] 0 (memOf 4 [(0, 0x00010002)]))).readReg ⟨(0#8).toNat, by decide⟩)) = false := by decide

/-- For `FlagsRecordRaisedCondition`, `ErrorHaltsArePrecise` and `OnlyHltHaltsCleanly`: a step that raises, and one that halts
cleanly. -/
theorem test_witness_halting_steps :
    (stateOf [] 0 (memOf 4 [(0, 7)])).Inv ∧ (stateOf [] 0 (memOf 4 [(0, 7)])).Running ∧
    (∃ t, step (stateOf [] 0 (memOf 4 [(0, 7)])) = .next t ∧ decide t.ErrorHalt = true) ∧
    (stateOf [] 0 (memOf 4 [(0, 1)])).Inv ∧ (stateOf [] 0 (memOf 4 [(0, 1)])).Running ∧
    ∃ t, step (stateOf [] 0 (memOf 4 [(0, 1)])) = .next t ∧ decide t.CleanHalt = true :=
  ⟨by decide, by decide, exists_of_nextIs (by decide), by decide, by decide, exists_of_nextIs (by decide)⟩

/-- The state after the HLT at 0 of a memory of one word. -/
def haltedState : State := { stateOf [] 1 (memOf 1 [(0, 1)]) with err := Err.clear.setHalted }

/-- For `HaltedStateIsFrozen`, `HostReadsHaltedState` and `StepKeepsInvariant`. -/
theorem test_witness_halted : haltedState.Halted ∧ haltedState.Inv := by decide

/-- For `FlagsAreNeverCleared` and `MaskValuesAlongRuns`: a run from reset to Halted. -/
theorem test_witness_run_from_reset : Reaches 1 (State.resetWith (memOf 1 [(0, 1)])) haltedState := by
  obtain ⟨t, h, p⟩ := exists_of_nextIs (o := step (State.resetWith (memOf 1 [(0, 1)])))
    (p := fun t => decide (t = haltedState)) (by decide)
  exact ⟨t, h, reaches_zero.2 (of_decide_eq_true p)⟩

/-- For `RunWithoutJumpsEnds`: a run whose executed instructions never write the program counter: one HLT. -/
theorem test_witness_run_without_jumps :
    (State.resetWith (memOf 1 [(0, 1)])).Inv ∧ 0 ≤ signed (State.resetWith (memOf 1 [(0, 1)])).pc ∧
    signed (State.resetWith (memOf 1 [(0, 1)])).pc ≤ ((memOf 1 [(0, 1)]).words : Int) ∧
    ∀ (n : Nat) (u : State) (i : Instr), Reaches n (State.resetWith (memOf 1 [(0, 1)])) u → u.FetchesInstr i →
      i.writesPc = false := by
  refine ⟨by decide, by decide, by decide, fun n u i hr hf => ?_⟩
  obtain ⟨t, h, p⟩ := exists_of_nextIs (o := step (State.resetWith (memOf 1 [(0, 1)])))
    (p := fun t => t.err.halted) (by decide)
  have stays : ∀ n : Nat, ∀ v : State, Reaches n t v → v.err.halted = true := by
    intro n
    induction n with
    | zero => intro v hv; rw [← reaches_zero.1 hv]; exact p
    | succ n ih =>
      intro v hv
      obtain ⟨w, h1, h2⟩ := reaches_succ_last.1 hv
      rw [step_of_halted (ih w h1)] at h2
      cases h2
      exact ih _ h1
  cases n with
  | zero =>
    rw [← reaches_zero.1 hr] at hf
    have hd : decodeInstr ((memOf 1 [(0, 1)]).read 0) = .ok i := hf.2.2
    rw [show decodeInstr ((memOf 1 [(0, 1)]).read 0) = .ok (.hlt 0 0) by decide] at hd
    cases hd
    rfl
  | succ n =>
    obtain ⟨w, h1, h2⟩ := reaches_succ.1 hr
    rw [h] at h1
    cases h1
    have := stays n u h2
    rw [hf.1] at this
    cases this

/-- For `HostBuildsAndDumpsMemory`. -/
theorem test_witness_host_words : ([0x00060003, 1] : List Word).length ≤ 2147483648 ∧ 1 < (Memory.ofWords [5, 7]).words := by
  decide

end Sys2Proof.Tests
end

/-! SUPPORT. Proofs about the state (spec/10_state.md): memory as its reads, reset, which registers an execute phase writes
and reads, and what every step keeps of `ERR` and memory. -/

namespace Sys2Proof.Machine

/-! ### Memory is its reads -/

theorem cellsWf_cons {words low a : Nat} {w : Word} {rest : List MemCell} :
    cellsWf words low ((a, w) :: rest) = true ↔
      (low ≤ a ∧ a < words ∧ w ≠ 0) ∧ cellsWf words (a + 1) rest = true := by
  simp [cellsWf]

@[simp] theorem readCells_nil (a : Nat) : readCells [] a = 0 := rfl

@[simp] theorem readCells_cons_self (a : Nat) (w : Word) (rest : List MemCell) :
    readCells ((a, w) :: rest) a = w := by simp [readCells]

theorem readCells_cons_of_lt {a b : Nat} (w : Word) (rest : List MemCell) (h : b < a) :
    readCells ((b, w) :: rest) a = readCells rest a := by
  simp [readCells, Nat.lt_asymm h, Nat.ne_of_gt h]

/-- Below the address canonical cells start from, nothing is listed. -/
theorem readCells_of_lt_low {words low a : Nat} {cells : List MemCell} (h : cellsWf words low cells = true)
    (ha : a < low) : readCells cells a = 0 := by
  cases cells with
  | nil => rfl
  | cons c rest =>
    obtain ⟨b, w⟩ := c
    obtain ⟨⟨hlb, _, _⟩, _⟩ := cellsWf_cons.1 h
    exact if_pos (ha.trans_le hlb)

/-- A listed cell holds a word that is not zero, so canonical cells that read the same do not start above it. -/
theorem not_lt_head_of_reads_eq {words low a : Nat} {w : Word} {rest cells : List MemCell} (hw : w ≠ 0)
    (hc : cellsWf words low cells = true) (hr : ∀ b, readCells ((a, w) :: rest) b = readCells cells b) :
    ¬ a < low := fun hlt =>
  hw (by rw [← readCells_cons_self a w rest, hr, readCells_of_lt_low hc hlt])

/-- Canonical cells that read the same everywhere are the same list: the least listed address is the least that does not
read zero, and so on for the rest. -/
theorem cells_eq_of_reads_eq {words words' : Nat} :
    ∀ {cells cells' : List MemCell} {low low' : Nat}, cellsWf words low cells = true →
      cellsWf words' low' cells' = true → (∀ a, readCells cells a = readCells cells' a) → cells = cells' := by
  intro cells
  induction cells with
  | nil =>
    intro cells' low low' _ h' hr
    cases cells' with
    | nil => rfl
    | cons c' rest' =>
      obtain ⟨a', w'⟩ := c'
      obtain ⟨⟨_, _, hw'⟩, _⟩ := cellsWf_cons.1 h'
      exact absurd (by simpa using (hr a').symm) hw'
  | cons c rest ih =>
    obtain ⟨a, w⟩ := c
    intro cells' low low' h h' hr
    obtain ⟨⟨_, haw, hw⟩, hrest⟩ := cellsWf_cons.1 h
    cases cells' with
    | nil => exact absurd (by simpa using hr a) hw
    | cons c' rest' =>
      obtain ⟨a', w'⟩ := c'
      obtain ⟨⟨_, haw', hw'⟩, hrest'⟩ := cellsWf_cons.1 h'
      have hle : a' ≤ a := Nat.not_lt.1 <|
        not_lt_head_of_reads_eq hw (cellsWf_cons.2 ⟨⟨le_rfl, haw', hw'⟩, hrest'⟩) hr
      have hge : a ≤ a' := Nat.not_lt.1 <|
        not_lt_head_of_reads_eq hw' (cellsWf_cons.2 ⟨⟨le_rfl, haw, hw⟩, hrest⟩) fun b => (hr b).symm
      obtain rfl : a = a' := Nat.le_antisymm hge hle
      obtain rfl : w = w' := by simpa using hr a
      have hreads : ∀ b, readCells rest b = readCells rest' b := by
        intro b
        rcases Nat.lt_or_ge a b with hb | hb
        · simpa only [readCells_cons_of_lt _ _ hb] using hr b
        · rw [readCells_of_lt_low hrest (Nat.lt_succ_of_le hb),
            readCells_of_lt_low hrest' (Nat.lt_succ_of_le hb)]
      rw [ih hrest hrest' hreads]

theorem Memory.wf_iff (m : Memory) :
    m.wf = true ↔ m.words ≤ Config.maxMemWords ∧ cellsWf m.words 0 m.cells = true := by
  simp only [Memory.wf, Bool.and_eq_true, decide_eq_true_eq]

/-- Settles O9: the cells are recovered from the reads in the order of their addresses. -/
theorem memoryIsItsReads : Obligations.MemoryIsItsReads := by
  intro m m' hm hm' hwords hreads
  have hcells : m.cells = m'.cells :=
    cells_eq_of_reads_eq ((Memory.wf_iff m).1 hm).2 ((Memory.wf_iff m').1 hm').2 hreads
  cases m
  cases m'
  simp_all

/-! ### Reset -/

/-- `GPR_RESET` and `PC_RESET` are both zero, so every entry of the register file is (R34). -/
@[simp] theorem State.resetWith_readReg (mem : Memory) (j : RegIndex) : (State.resetWith mem).readReg j = 0 := by
  simp [State.readReg, State.resetWith, resetRegisters]

/-- Settles O45. -/
theorem resetGivesStatedValues : Obligations.ResetGivesStatedValues :=
  ⟨fun mem => ⟨State.resetWith_readReg mem, State.resetWith_readReg mem pcReg, rfl, rfl, rfl, rfl⟩,
    fun _ a => ⟨rfl, readCells_nil a⟩⟩

theorem Err.clear_wf : Err.clear.wf = true := rfl

/-- Settles O47. -/
theorem resetHasInvariant : Obligations.ResetHasInvariant :=
  ⟨⟨reset_mem_wf, Err.clear_wf⟩, fun _ hmem => ⟨hmem, Err.clear_wf⟩⟩

/-! ### The execute phase as one effect -/

/-- The effect of any instruction before an exception is taken: its state, or the cause it raises. -/
def execEffect (i : Instr) (s : State) : Except Cause State :=
  match i with
  | .nop _ _ => .ok s
  | .hlt _ _ => .ok (s.withErr s.err.setHalted)
  | .ldm source target => ldmEffect source target s
  | .ldq target imm => ldqEffect target imm s
  | .wrm location value => wrmEffect location value s
  | .add dest source => addEffect dest source s
  | .adq dest imm => adqEffect dest imm s

theorem exec_eq_complete (i : Instr) (s : State) : exec i s = complete s (execEffect i s) := by
  cases i <;> rfl

/-- A register index that passes its check is the byte it was given (R89). -/
theorem eq_ofNat_of_regIndex {b : Byte} {d : RegIndex} (h : regIndex b = .ok d) : b = BitVec.ofNat 8 d.val := by
  rcases regIndex_cases b with ⟨hb, e⟩ | ⟨_, e⟩
  · obtain rfl : ⟨b.toNat, hb⟩ = d := Except.ok.inj (e.symm.trans h)
    simp
  · cases e.symm.trans h

/-! ### The column of registers written (R22) -/

/-- An effect that succeeds writes the register the table names as written, or no register. -/
theorem execEffect_registers {i : Instr} {s t : State} (h : execEffect i s = .ok t) :
    SameRegs s t ∨ ∃ (d : RegIndex) (v : Word),
      i.registerWritten = some (BitVec.ofNat 8 d.val) ∧ t = s.writeReg d v := by
  cases i with
  | nop => cases h; exact .inl fun _ => rfl
  | hlt => cases h; exact .inl fun _ => rfl
  | ldm source target =>
    rcases ldmEffect_cases source target s with ⟨_, d, _, hd, _, e⟩ | ⟨_, _, e⟩ <;> cases e.symm.trans h
    exact .inr ⟨d, _, congrArg some (eq_ofNat_of_regIndex hd), rfl⟩
  | ldq target imm =>
    rcases ldqEffect_cases target imm s with ⟨d, hd, e⟩ | ⟨_, _, e⟩ <;> cases e.symm.trans h
    exact .inr ⟨d, _, congrArg some (eq_ofNat_of_regIndex hd), rfl⟩
  | wrm location value =>
    rcases wrmEffect_cases location value s with ⟨_, _, _, _, _, e⟩ | ⟨_, _, e⟩ <;> cases e.symm.trans h
    exact .inl fun _ => rfl
  | add dest source =>
    rcases addEffect_cases dest source s with ⟨d, _, hd, _, e⟩ | ⟨_, _, e⟩ <;> cases e.symm.trans h
    exact .inr ⟨d, _, congrArg some (eq_ofNat_of_regIndex hd), rfl⟩
  | adq dest imm =>
    rcases adqEffect_cases dest imm s with ⟨d, hd, e⟩ | ⟨_, _, e⟩ <;> cases e.symm.trans h
    exact .inr ⟨d, _, congrArg some (eq_ofNat_of_regIndex hd), rfl⟩

/-- An execute phase, raising or not, writes the register the table names as written, or no register. -/
theorem exec_registers {i : Instr} {s t : State} (h : exec i s = .next t) :
    SameRegs s t ∨ ∃ (d : RegIndex) (v : Word),
      i.registerWritten = some (BitVec.ofNat 8 d.val) ∧ t = s.writeReg d v := by
  rw [exec_eq_complete] at h
  rcases complete_next h with hok | ⟨c, _, rfl⟩
  · exact execEffect_registers hok
  · exact .inl (raise_readReg c s)

/-- Settles O18. -/
theorem onlyTableRegisterChanges : Obligations.OnlyTableRegisterChanges := by
  intro i s t h j hj
  rcases exec_registers h with hsame | ⟨d, v, hd, rfl⟩
  · exact hsame j
  · have hjd : j ≠ d := fun e => hj (e ▸ hd)
    exact State.readReg_writeReg_ne s v hjd

/-! ### The column of registers read (R22) -/

/-- The results of one effect without and with register `j` set to `v` beforehand, where the effect does not read `j`: the
same cause is raised, or the states differ by that write, or the effect has covered the write by its own. -/
inductive SameResultBut (j : RegIndex) (v : Word) : Except Cause State → Except Cause State → Prop
  | raised (c : Cause) : SameResultBut j v (.error c) (.error c)
  | kept (t : State) : SameResultBut j v (.ok t) (.ok (t.writeReg j v))
  | covered (t : State) : SameResultBut j v (.ok t) (.ok t)

namespace SameResultBut

variable {j : RegIndex} {v : Word}

/-- A check that answers the same in both runs may come first. -/
theorem bind {α : Type} {x : Except Cause α} {f g : α → Except Cause State}
    (h : ∀ a, x = .ok a → SameResultBut j v (f a) (g a)) : SameResultBut j v (x >>= f) (x >>= g) := by
  cases x with
  | error c => exact .raised c
  | ok a => exact h a rfl

/-- Writing one word to one register in both runs. -/
theorem writeReg (s : State) (d : RegIndex) (w : Word) :
    SameResultBut j v (.ok (s.writeReg d w)) (.ok ((s.writeReg j v).writeReg d w)) := by
  by_cases hd : j = d
  · subst hd
    rw [State.writeReg_writeReg_self]
    exact .covered _
  · rw [State.writeReg_comm s v w hd]
    exact .kept _

/-- Adding one word in both runs to a register that reads the same in both. -/
theorem addToReg {s : State} {d : RegIndex} (w : Word) (hd : (s.writeReg j v).readReg d = s.readReg d) :
    SameResultBut j v (.ok (s.addToReg d w)) (.ok ((s.writeReg j v).addToReg d w)) := by
  rw [State.addToReg, State.addToReg, hd]
  exact .writeReg s d _

/-- The end of the phase: an exception is taken in the state that has the write. -/
theorem complete_next {s t : State} {r r' : Except Cause State} (hr : SameResultBut j v r r')
    (h : complete s r = .next t) :
    ∃ t', complete (s.writeReg j v) r' = .next t' ∧ (t' = t.writeReg j v ∨ t' = t) := by
  cases hr with
  | raised c => cases h; exact ⟨_, rfl, .inl rfl⟩
  | kept u => cases h; exact ⟨_, rfl, .inl rfl⟩
  | covered u => cases h; exact ⟨_, rfl, .inr rfl⟩

end SameResultBut

/-- A register that a byte other than `j` names reads the same after a write to `j`. -/
theorem readReg_writeReg_of_regIndex {b : Byte} {i j : RegIndex} (s : State) (v : Word) (hi : regIndex b = .ok i)
    (hj : BitVec.ofNat 8 j.val ≠ b) : (s.writeReg j v).readReg i = s.readReg i :=
  State.readReg_writeReg_ne s v fun e => hj (e ▸ (eq_ofNat_of_regIndex hi).symm)

/-- A write to a register the table does not name as read leaves the effect the same, up to that write. -/
theorem execEffect_sameResultBut {i : Instr} {j : RegIndex} (s : State) (v : Word)
    (hj : BitVec.ofNat 8 j.val ∉ i.registersRead) :
    SameResultBut j v (execEffect i s) (execEffect i (s.writeReg j v)) := by
  cases i with
  | nop => exact .kept s
  | hlt => exact .kept (s.withErr s.err.setHalted)
  | ldm source target =>
    have hsource : BitVec.ofNat 8 j.val ≠ source := by simpa [Instr.registersRead] using hj
    refine .bind fun i hi => .bind fun d _ => ?_
    rw [readReg_writeReg_of_regIndex s v hi hsource]
    exact .bind fun a _ => .writeReg s d (s.mem.read a)
  | ldq target imm => exact .bind fun d _ => .writeReg s d (immediate imm)
  | wrm location value =>
    obtain ⟨hlocation, hvalue⟩ : BitVec.ofNat 8 j.val ≠ location ∧ BitVec.ofNat 8 j.val ≠ value := by
      simpa [Instr.registersRead] using hj
    refine .bind fun l hl => .bind fun r hr => ?_
    rw [readReg_writeReg_of_regIndex s v hl hlocation, readReg_writeReg_of_regIndex s v hr hvalue]
    exact .bind fun a _ => .kept (s.withMem (s.mem.write a (s.readReg r)))
  | add dest source =>
    obtain ⟨hdest, hsource⟩ : BitVec.ofNat 8 j.val ≠ dest ∧ BitVec.ofNat 8 j.val ≠ source := by
      simpa [Instr.registersRead] using hj
    refine .bind fun d hd => .bind fun r hr => ?_
    rw [readReg_writeReg_of_regIndex s v hr hsource]
    exact .addToReg (s.readReg r) (readReg_writeReg_of_regIndex s v hd hdest)
  | adq dest imm =>
    have hdest : BitVec.ofNat 8 j.val ≠ dest := by simpa [Instr.registersRead] using hj
    exact .bind fun d hd => .addToReg (immediate imm) (readReg_writeReg_of_regIndex s v hd hdest)

/-- Settles O19: the execute phase ends in the same state but for the write, which stands or has been covered. -/
theorem unreadRegisterHasNoInfluence : Obligations.UnreadRegisterHasNoInfluence := by
  intro i s t j v hj h
  rw [exec_eq_complete] at h
  obtain ⟨t', ht', hcase⟩ := (execEffect_sameResultBut s v hj).complete_next h
  refine ⟨t', by rw [exec_eq_complete, ht'], ?_⟩
  rcases hcase with rfl | rfl
  · exact ⟨rfl, rfl, fun k hk => State.readReg_writeReg_ne t v hk, .inl (State.readReg_writeReg_self t j v)⟩
  · exact ⟨rfl, rfl, fun _ _ => rfl, .inr rfl⟩

/-! ### What a step does to `ERR` and to memory -/

/-- A step keeps a halted state; in a running one it takes an exception or runs an execute phase, from a state in which the
fetch has changed neither `ERR` nor memory. -/
theorem step_next_cases {s t : State} (h : step s = .next t) :
    t = s ∨ s.Running ∧ ∃ u : State, u.err = s.err ∧ u.mem = s.mem ∧
      ((∃ c, t = raise c u) ∨ ∃ i, exec i u = .next t) := by
  cases hh : s.err.halted with
  | true => exact .inl (Host.Outcome.next.inj (h.symm.trans (step_of_halted hh)))
  | false =>
    refine .inr ⟨hh, ?_⟩
    rcases step_cases s hh with ⟨_, e⟩ | ⟨_, _, e⟩ | ⟨_, i, _, e⟩ <;> rw [e] at h
    · exact ⟨s, rfl, rfl, .inl ⟨_, (Host.Outcome.next.inj h).symm⟩⟩
    · exact ⟨s.writeReg pcReg (s.pc + 1), rfl, rfl, .inl ⟨_, (Host.Outcome.next.inj h).symm⟩⟩
    · exact ⟨s.writeReg pcReg (s.pc + 1), rfl, rfl, .inr ⟨i, h⟩⟩

/-- An execute phase keeps `ERR`, sets `HALTED`, or sets the flags of an exception. -/
theorem exec_err_cases {i : Instr} {s t : State} (h : exec i s = .next t) :
    t.err = s.err ∨ t.err = s.err.setHalted ∨ ∃ c : Cause, t.err = c.setFlags s.err := by
  rcases exec_cases i s t h with rfl | ⟨_, _, _, rfl⟩ | ⟨_, _, rfl⟩ | ⟨_, _, _, rfl⟩ | ⟨k, v, rfl⟩
  · exact .inl rfl
  · exact .inr (.inl rfl)
  · exact .inl rfl
  · exact .inl rfl
  · exact .inr (.inr ⟨.addressFault k v, rfl⟩)

/-- An execute phase keeps memory or stores one word to a cell in range. -/
theorem exec_mem_cases {i : Instr} {s t : State} (h : exec i s = .next t) :
    t.mem = s.mem ∨ ∃ (a : Nat) (v : Word), a < s.mem.words ∧ t.mem = s.mem.write a v := by
  rcases exec_cases i s t h with rfl | ⟨_, _, _, rfl⟩ | ⟨_, _, rfl⟩ | ⟨l, r, hl, rfl⟩ | ⟨_, _, rfl⟩
  · exact .inl rfl
  · exact .inl rfl
  · exact .inl rfl
  · exact .inr ⟨_, _, Memory.toNat_lt_of_inRange hl, rfl⟩
  · exact .inl rfl

/-- A step keeps `ERR`, or it is a step of the running machine that sets `HALTED` or the flags of an exception. -/
theorem step_err_cases {s t : State} (h : step s = .next t) :
    t.err = s.err ∨ s.Running ∧ (t.err = s.err.setHalted ∨ ∃ c : Cause, t.err = c.setFlags s.err) := by
  rcases step_next_cases h with rfl | ⟨hrun, u, herr, _, ⟨c, rfl⟩ | ⟨i, hexec⟩⟩
  · exact .inl rfl
  · exact .inr ⟨hrun, .inr ⟨c, by rw [raise_err, herr]⟩⟩
  · rw [← herr]
    exact (exec_err_cases hexec).imp_right fun hset => ⟨hrun, hset⟩

/-- A step keeps memory or stores one word to a cell in range. -/
theorem step_mem_cases {s t : State} (h : step s = .next t) :
    t.mem = s.mem ∨ ∃ (a : Nat) (v : Word), a < s.mem.words ∧ t.mem = s.mem.write a v := by
  rcases step_next_cases h with rfl | ⟨_, u, _, hmem, ⟨c, rfl⟩ | ⟨i, hexec⟩⟩
  · exact .inl rfl
  · exact .inl hmem
  · rw [← hmem]
    exact exec_mem_cases hexec

/-! ### The invariant -/

theorem Err.setHalted_wf {e : Err} (h : e.wf = true) : e.setHalted.wf = true := by
  simp_all [Err.wf]

/-- In Running no error flag is set yet, so an exception sets its own flag only. -/
theorem Err.error_flags_clear {e : Err} (h : e.wf = true) (hrun : e.halted = false) :
    e.unknownOpcode = false ∧ e.addrFault = false := by
  simp_all [Err.wf]

theorem Cause.setFlags_wf (c : Cause) {e : Err} (h : e.wf = true) (hrun : e.halted = false) :
    (c.setFlags e).wf = true := by
  obtain ⟨hunknown, haddr⟩ := Err.error_flags_clear h hrun
  cases c with
  | unknownOpcode w => simp [Err.wf, haddr]
  | addressFault kind value => simp [Err.wf, hunknown]

theorem step_keeps_err_wf {s t : State} (hs : s.err.wf = true) (h : step s = .next t) : t.err.wf = true := by
  rcases step_err_cases h with e | ⟨hrun, e | ⟨c, e⟩⟩ <;> rw [e]
  · exact hs
  · exact Err.setHalted_wf hs
  · exact Cause.setFlags_wf c hs hrun

theorem step_keeps_mem_wf {s t : State} (hs : s.mem.wf = true) (h : step s = .next t) : t.mem.wf = true := by
  rcases step_mem_cases h with e | ⟨a, v, ha, e⟩ <;> rw [e]
  · exact hs
  · exact Memory.write_wf v hs ha

/-- Settles O48: memory and flags each keep their half of the invariant. -/
theorem stepKeepsInvariant : Obligations.StepKeepsInvariant :=
  fun _ _ ⟨hmem, herr⟩ h => ⟨step_keeps_mem_wf hmem h, step_keeps_err_wf herr h⟩

/-! ### Along runs -/

/-- What every step keeps holds at the end of a run that it holds at the start of. -/
theorem reaches_keeps {P : State → Prop} (hstep : ∀ {u w : State}, P u → step u = .next w → P w) {n : Nat}
    {s t : State} (h : Reaches n s t) (hs : P s) : P t := by
  induction n generalizing s with
  | zero => exact reaches_zero.1 h ▸ hs
  | succ n ih =>
    obtain ⟨u, hsu, hut⟩ := reaches_succ.1 h
    exact ih hut (hstep hs hsu)

theorem step_keeps_mem_words {s t : State} (h : step s = .next t) : t.mem.words = s.mem.words := by
  rcases step_mem_cases h with e | ⟨a, v, _, e⟩ <;> rw [e]
  exact Memory.write_words s.mem a v

/-- Settles O32. -/
theorem memoryLengthIsFixed : Obligations.MemoryLengthIsFixed := fun _ s _ h =>
  reaches_keeps (P := fun u => u.mem.words = s.mem.words) (fun hu hstep => (step_keeps_mem_words hstep).trans hu) h rfl

/-- Every flag set in the first mask is set in the second (R29). -/
def Err.FlagsKept (e e' : Err) : Prop :=
  (e.unknownOpcode = true → e'.unknownOpcode = true) ∧ (e.halted = true → e'.halted = true) ∧
    (e.addrFault = true → e'.addrFault = true)

theorem Err.FlagsKept.refl (e : Err) : e.FlagsKept e := ⟨id, id, id⟩

theorem Err.FlagsKept.trans {e e' e'' : Err} (h : e.FlagsKept e') (h' : e'.FlagsKept e'') : e.FlagsKept e'' := by
  obtain ⟨hu, hh, ha⟩ := h
  obtain ⟨hu', hh', ha'⟩ := h'
  exact ⟨hu' ∘ hu, hh' ∘ hh, ha' ∘ ha⟩

theorem Err.flagsKept_setHalted (e : Err) : e.FlagsKept e.setHalted := ⟨id, fun _ => rfl, id⟩

theorem Cause.flagsKept_setFlags (c : Cause) (e : Err) : e.FlagsKept (c.setFlags e) := by
  cases c with
  | unknownOpcode w => exact ⟨fun _ => rfl, fun _ => rfl, id⟩
  | addressFault kind value => exact ⟨id, fun _ => rfl, fun _ => rfl⟩

theorem step_flagsKept {s t : State} (h : step s = .next t) : s.err.FlagsKept t.err := by
  rcases step_err_cases h with e | ⟨_, e | ⟨c, e⟩⟩ <;> rw [e]
  · exact .refl _
  · exact Err.flagsKept_setHalted _
  · exact Cause.flagsKept_setFlags c _

/-- Settles O40. -/
theorem flagsAreNeverCleared : Obligations.FlagsAreNeverCleared := fun _ s _ h =>
  reaches_keeps (P := fun u => s.err.FlagsKept u.err) (fun hu hstep => hu.trans (step_flagsKept hstep)) h (.refl _)

/-! ### The mask as a number -/

theorem Err.mask_lt (e : Err) : e.mask < 8 := by
  have hu := Bool.toNat_le e.unknownOpcode
  have hh := Bool.toNat_le e.halted
  have ha := Bool.toNat_le e.addrFault
  simp only [Err.mask]
  omega

/-- The four combinations R27 and R29 allow are the masks R28 lists. -/
theorem Err.mask_of_wf {e : Err} (h : e.wf = true) : e.mask = 0 ∨ e.mask = 2 ∨ e.mask = 3 ∨ e.mask = 6 := by
  obtain ⟨u, hh, a⟩ := e
  revert h
  cases u <;> cases hh <;> cases a <;> decide

/-- The position of each flag in the mask (R28). -/
theorem Err.mask_testBit (e : Err) :
    e.mask.testBit 0 = e.unknownOpcode ∧ e.mask.testBit 1 = e.halted ∧ e.mask.testBit 2 = e.addrFault := by
  obtain ⟨u, hh, a⟩ := e
  cases u <;> cases hh <;> cases a <;> decide

theorem Err.mask_testBit_of_ge (e : Err) {k : Nat} (hk : 3 ≤ k) : e.mask.testBit k = false :=
  Nat.testBit_lt_two_pow (e.mask_lt.trans_le (Nat.pow_le_pow_right (by decide : 0 < 2) hk))

/-- Settles O41: the flags are an allowed combination at reset and after every step, whatever the memory. -/
theorem maskValuesAlongRuns : Obligations.MaskValuesAlongRuns := by
  refine ⟨fun e => ?_, fun mem n t h => ?_⟩
  · obtain ⟨h0, h1, h2⟩ := e.mask_testBit
    exact ⟨h0, h1, h2, fun _ hk => e.mask_testBit_of_ge hk⟩
  · have hwf : t.err.wf = true := reaches_keeps (P := fun u => u.err.wf = true) step_keeps_err_wf h Err.clear_wf
    exact Err.mask_of_wf hwf

end Sys2Proof.Machine

/-! SUPPORT. Proofs about memory (spec/20_memory.md): what a cell reads after a store, which words are addresses, how the
host builds and dumps memory, and what the accesses of a step at the memory port do. -/

namespace Sys2Proof.Machine

/-! ### A cell after a store (R54) -/

theorem readCells_cons_of_gt {a b : Nat} (w : Word) (rest : List MemCell) (h : b < a) :
    readCells ((a, w) :: rest) b = 0 := if_pos h

/-- A word in front of cells with greater addresses is what its address reads as, be it zero and so not listed. -/
theorem readCells_consCell {words a : Nat} {cells : List MemCell} (v : Word) (b : Nat)
    (h : cellsWf words (a + 1) cells = true) :
    readCells (consCell a v cells) b = if b = a then v else readCells cells b := by
  have hlow : b ≤ a → readCells cells b = 0 := fun hb => readCells_of_lt_low h (Nat.lt_succ_of_le hb)
  unfold consCell
  split
  · next hv =>
    split
    · next hba => rw [hlow hba.le, hv]
    · rfl
  · rcases Nat.lt_trichotomy b a with hb | rfl | hb
    · rw [readCells_cons_of_gt v cells hb, if_neg hb.ne, hlow hb.le]
    · rw [readCells_cons_self, if_pos rfl]
    · rw [readCells_cons_of_lt v cells hb, if_neg hb.ne']

/-- A store to canonical cells is seen at its address and nowhere else. -/
theorem readCells_writeCells {words : Nat} (a b : Nat) (v : Word) :
    ∀ {cells : List MemCell} {low : Nat}, cellsWf words low cells = true →
      readCells (writeCells cells a v) b = if b = a then v else readCells cells b := by
  intro cells
  induction cells with
  | nil => intro low _; exact readCells_consCell (words := words) v b rfl
  | cons c rest ih =>
    obtain ⟨d, w⟩ := c
    intro low h
    obtain ⟨⟨_, hd, hw⟩, hrest⟩ := cellsWf_cons.1 h
    rcases Nat.lt_trichotomy a d with had | rfl | had
    · have hcells : cellsWf words (a + 1) ((d, w) :: rest) = true := cellsWf_cons.2 ⟨⟨had, hd, hw⟩, hrest⟩
      rw [writeCells, if_pos had, readCells_consCell v b hcells]
    · rw [writeCells, if_neg (Nat.lt_irrefl a), if_pos rfl, readCells_consCell v b hrest]
      split
      · rfl
      · next hba =>
        rcases Nat.lt_or_gt_of_ne hba with hb | hb
        · rw [readCells_cons_of_gt w rest hb, readCells_of_lt_low hrest (Nat.lt_succ_of_lt hb)]
        · rw [readCells_cons_of_lt w rest hb]
    · rw [writeCells, if_neg had.asymm, if_neg had.ne']
      rcases Nat.lt_trichotomy b d with hb | rfl | hb
      · rw [readCells_cons_of_gt w _ hb, readCells_cons_of_gt w _ hb, if_neg (hb.trans had).ne]
      · rw [readCells_cons_self, readCells_cons_self, if_neg had.ne]
      · rw [readCells_cons_of_lt w _ hb, readCells_cons_of_lt w _ hb, ih hrest]

theorem Memory.read_write {m : Memory} (hm : m.wf = true) (a b : Nat) (v : Word) :
    (m.write a v).read b = if b = a then v else m.read b :=
  readCells_writeCells a b v ((Memory.wf_iff m).1 hm).2

/-- Settles O8. -/
theorem storeChangesOneCell : Obligations.StoreChangesOneCell := by
  intro m a v hm _
  refine ⟨Memory.write_words m a v, ?_, fun b hb => ?_⟩
  · rw [Memory.read_write hm, if_pos rfl]
  · rw [Memory.read_write hm, if_neg hb]

/-! ### Addresses (R52) -/

theorem Memory.inRange_iff (m : Memory) (a : Int) : m.inRange a = true ↔ 0 ≤ a ∧ a < (m.words : Int) :=
  decide_eq_true_iff

/-- A memory no longer than R5 admits ends where the negative words begin, so the sign of a word does not matter. -/
theorem Memory.signed_inRange_iff {m : Memory} (hm : m.wf = true) (w : Word) :
    (0 ≤ signed w ∧ signed w < (m.words : Int)) ↔ w.toNat < m.words := by
  have hmax : m.words ≤ 2147483648 := ((Memory.wf_iff m).1 hm).1
  have hw : w.toNat < 4294967296 := w.isLt
  have hsigned : signed w = if 2 * w.toNat < 4294967296 then (w.toNat : Int) else w.toNat - 4294967296 :=
    BitVec.toInt_eq_toNat_cond w
  rw [hsigned]
  split <;> omega

/-- Settles O10. -/
theorem validAddressIsSignedInRange : Obligations.ValidAddressIsSignedInRange := by
  intro kind m w hm
  have hvalid : m.inRange (signed w) = true ↔ w.toNat < m.words :=
    (Memory.inRange_iff m _).trans (Memory.signed_inRange_iff hm w)
  refine ⟨Memory.signed_inRange_iff hm w, fun h => memIndex_of_inRange kind (hvalid.2 h), fun h => ?_⟩
  exact memIndex_of_not_inRange kind (Bool.eq_false_iff.2 (hvalid.not.2 (Nat.not_lt.2 h)))

/-! ### Memory the host builds and dumps (R66, R232) -/

theorem cellsWf_cellsOfWords {words : Nat} :
    ∀ {ws : List Word} {low : Nat}, low + ws.length ≤ words → cellsWf words low (cellsOfWords low ws) = true := by
  intro ws
  induction ws with
  | nil => intro low _; rfl
  | cons w rest ih =>
    intro low h
    rw [List.length_cons] at h
    exact cellsWf_consCell le_rfl (by omega) (ih (by omega))

theorem readCells_cellsOfWords :
    ∀ (ws : List Word) (low k : Nat), readCells (cellsOfWords low ws) (low + k) = ws.getD k 0 := by
  intro ws
  induction ws with
  | nil => intro low k; rfl
  | cons w rest ih =>
    intro low k
    rw [cellsOfWords, readCells_consCell w (low + k) (cellsWf_cellsOfWords le_rfl)]
    cases k with
    | zero => exact if_pos rfl
    | succ k => rw [if_neg (by omega), List.getD_cons_succ, ← ih (low + 1) k, Nat.add_right_comm, Nat.add_assoc]

theorem Memory.ofWords_wf {ws : List Word} (h : ws.length ≤ Config.maxMemWords) : (Memory.ofWords ws).wf = true :=
  (Memory.wf_iff _).2 ⟨h, cellsWf_cellsOfWords (Nat.zero_add _).le⟩

theorem Memory.read_ofWords (ws : List Word) (a : Nat) : (Memory.ofWords ws).read a = ws.getD a 0 := by
  rw [← readCells_cellsOfWords ws 0 a, Nat.zero_add, Memory.read, Memory.ofWords]

/-- Settles O49. -/
theorem hostBuildsAndDumpsMemory : Obligations.HostBuildsAndDumpsMemory := by
  refine ⟨fun ws h => ⟨Memory.ofWords_wf h, rfl, Memory.read_ofWords ws⟩, fun m => ⟨?_, fun a ha => ?_⟩⟩
  · simp [Memory.dump]
  · simp [Memory.dump, ha]

/-! ### A store to the next instruction (R64) -/

@[simp] theorem State.afterFetch_pc (s : State) : s.afterFetch.pc = s.pc + 1 := State.pc_writeReg_pcReg s _
@[simp] theorem State.afterFetch_mem (s : State) : s.afterFetch.mem = s.mem := rfl
@[simp] theorem State.afterFetch_err (s : State) : s.afterFetch.err = s.err := rfl

/-- The step of an instruction is its execute phase after the fetch (R111 to R114). -/
theorem step_of_fetchesInstr {s : State} {i : Instr} (h : s.FetchesInstr i) : step s = exec i s.afterFetch := by
  obtain ⟨hrun, hr, hd⟩ := h
  rcases step_cases s hrun with ⟨hr', _⟩ | ⟨_, ⟨e, hd'⟩, _⟩ | ⟨_, j, hd', hstep⟩
  · cases hr.symm.trans hr'
  · cases hd.symm.trans hd'
  · cases hd.symm.trans hd'
    exact hstep

/-- A WRM whose checks pass stores the word (R141). -/
theorem execWrm_of_inRange {location value : Byte} {s : State} {l r : RegIndex} (hl : regIndex location = .ok l)
    (hr : regIndex value = .ok r) (ha : s.mem.inRange (signed (s.readReg l)) = true) :
    execWrm location value s = .next (s.withMem (s.mem.write (signed (s.readReg l)).toNat (s.readReg r))) := by
  simp only [execWrm, wrmEffect, hl, hr, memIndex_of_inRange .data ha, bind, Except.bind]
  rfl

/-- Settles O28: the step's own store is to the cell its new program counter names. -/
theorem storeIsSeenByNextFetch : Obligations.StoreIsSeenByNextFetch := by
  intro s location value hl hv hm hf haddr hnext
  have hrange : s.afterFetch.mem.inRange (signed (s.afterFetch.readReg ⟨location.toNat, hl⟩)) = true := by
    rw [haddr, State.afterFetch_mem, hnext]
  refine ⟨_, (step_of_fetchesInstr hf).trans
    (execWrm_of_inRange (regIndex_of_lt hl) (regIndex_of_lt hv) hrange), hf.1, ?_, ?_⟩
  · simpa using hnext
  · simp [haddr, Memory.read_write hm]

/-! ### The accesses of an execute phase at the memory port (R58) -/

theorem accessList_length (r : Except Cause BusAccess) : (accessList r).length ≤ 1 := by
  cases r with
  | ok b => exact le_rfl
  | error c => exact Nat.zero_le 1

theorem execAccesses_length (i : Instr) (s : State) : (execAccesses i s).length ≤ 1 := by
  cases i with
  | ldm source target => exact accessList_length _
  | wrm location value => exact accessList_length _
  | nop | hlt | ldq | add | adq => exact Nat.zero_le 1

theorem mem_accessList {r : Except Cause BusAccess} {b : BusAccess} : b ∈ accessList r ↔ r = .ok b := by
  cases r <;> simp [accessList, eq_comm]

/-- A phase that passes all its checks has passed the first. -/
theorem exists_ok_of_bind_ok {α β : Type} {x : Except Cause α} {f : α → Except Cause β} {b : β}
    (h : x >>= f = .ok b) : ∃ a, x = .ok a ∧ f a = .ok b := by
  cases x with
  | ok a => exact ⟨a, rfl, h⟩
  | error c => cases h

theorem ldmAccess_we {source target : Byte} {s : State} {b : BusAccess} (h : ldmAccess source target s = .ok b) :
    b.we = false := by
  obtain ⟨_, _, h⟩ := exists_ok_of_bind_ok h
  obtain ⟨_, _, h⟩ := exists_ok_of_bind_ok h
  obtain ⟨_, _, h⟩ := exists_ok_of_bind_ok h
  cases h
  rfl

/-- Only WRM writes. -/
theorem execAccesses_write {i : Instr} {s : State} {b : BusAccess} (hb : b ∈ execAccesses i s) (hwe : b.we = true) :
    ∃ location value, i = .wrm location value := by
  cases i with
  | wrm location value => exact ⟨location, value, rfl⟩
  | ldm source target => cases hwe.symm.trans (ldmAccess_we (mem_accessList.1 hb))
  | nop | hlt | ldq | add | adq => cases hb

theorem Memory.apply_of_read {m : Memory} {b : BusAccess} (h : b.we = false) : m.apply b = m := by
  simp [Memory.apply, h]

theorem Memory.apply_of_write {m : Memory} {b : BusAccess} (h : b.we = true) :
    m.apply b = m.write (signed b.addr).toNat b.data := if_pos h

theorem foldl_apply_reads (m : Memory) {bs : List BusAccess} (h : ∀ b ∈ bs, b.we = false) :
    bs.foldl Memory.apply m = m := by
  induction bs with
  | nil => rfl
  | cons b rest ih =>
    rw [List.foldl_cons, Memory.apply_of_read (h b List.mem_cons_self)]
    exact ih fun c hc => h c (List.mem_cons_of_mem b hc)

/-- The effect of WRM is its port access applied to memory: both make the same checks in the same order. -/
theorem wrmEffect_eq_map_access (location value : Byte) (s : State) :
    wrmEffect location value s = (wrmAccess location value s).map fun b => s.withMem (s.mem.apply b) := by
  rcases regIndex_cases location with ⟨hlt, hl⟩ | ⟨_, hl⟩
  · rcases regIndex_cases value with ⟨_, hv⟩ | ⟨_, hv⟩
    · rcases memIndex_cases .data s.mem (s.readReg ⟨location.toNat, hlt⟩) with ⟨_, ha⟩ | ⟨_, ha⟩ <;>
        simp only [wrmEffect, wrmAccess, hl, hv, ha, bind, Except.bind] <;> rfl
    · simp only [wrmEffect, wrmAccess, hl, hv, bind, Except.bind]; rfl
  · simp only [wrmEffect, wrmAccess, hl, bind, Except.bind]; rfl

/-- No instruction but WRM changes memory. -/
theorem exec_mem_of_not_wrm {i : Instr} {s t : State} (hi : ¬ ∃ location value, i = .wrm location value)
    (h : exec i s = .next t) : t.mem = s.mem := by
  rw [exec_eq_complete] at h
  rcases complete_next h with hok | ⟨c, _, rfl⟩
  · cases i with
    | nop | hlt => cases hok; rfl
    | ldm source target =>
      rcases ldmEffect_cases source target s with ⟨_, _, _, _, _, e⟩ | ⟨_, _, e⟩ <;> cases e.symm.trans hok
      rfl
    | ldq target imm =>
      rcases ldqEffect_cases target imm s with ⟨_, _, e⟩ | ⟨_, _, e⟩ <;> cases e.symm.trans hok
      rfl
    | wrm location value => exact absurd ⟨location, value, rfl⟩ hi
    | add dest source =>
      rcases addEffect_cases dest source s with ⟨_, _, _, _, e⟩ | ⟨_, _, e⟩ <;> cases e.symm.trans hok
      rfl
    | adq dest imm =>
      rcases adqEffect_cases dest imm s with ⟨_, _, e⟩ | ⟨_, _, e⟩ <;> cases e.symm.trans hok
      rfl
  · exact raise_mem c s

theorem execWrm_mem {location value : Byte} {s t : State} (h : execWrm location value s = .next t) :
    t.mem = (accessList (wrmAccess location value s)).foldl Memory.apply s.mem := by
  rw [execWrm, wrmEffect_eq_map_access] at h
  cases haccess : wrmAccess location value s <;> rw [haccess] at h <;> cases h <;> rfl

/-- Memory after an execute phase is memory before it with the phase's accesses applied. -/
theorem exec_mem_eq_foldl {i : Instr} {s t : State} (h : exec i s = .next t) :
    t.mem = (execAccesses i s).foldl Memory.apply s.mem := by
  by_cases hi : ∃ location value, i = .wrm location value
  · obtain ⟨location, value, rfl⟩ := hi
    exact execWrm_mem h
  · rw [exec_mem_of_not_wrm hi h, foldl_apply_reads]
    exact fun b hb => Bool.eq_false_iff.2 fun hwe => hi (execAccesses_write hb hwe)

/-! ### The accesses of a step (R58, R61, R240) -/

/-- The read access of a fetch that passes its check. -/
def State.fetchAccess (s : State) : BusAccess :=
  { addr := s.pc, we := false, data := s.mem.read (signed s.pc).toNat }

/-- A step makes no access, or the fetch read only, and keeps memory; or it makes the fetch read and then the accesses of
the execute phase it runs. -/
theorem busAccesses_cases {s t : State} (h : step s = .next t) :
    (busAccesses s = [] ∧ t.mem = s.mem) ∨ (busAccesses s = [s.fetchAccess] ∧ t.mem = s.mem) ∨
      ∃ i, s.FetchesInstr i ∧ exec i s.afterFetch = .next t ∧
        busAccesses s = s.fetchAccess :: execAccesses i s.afterFetch := by
  cases hh : s.err.halted with
  | true =>
    cases (step_of_halted hh).symm.trans h
    exact .inl ⟨by simp [busAccesses, hh], rfl⟩
  | false =>
    rcases step_cases s hh with ⟨hr, e⟩ | ⟨hr, ⟨_, hd⟩, e⟩ | ⟨hr, i, hd, e⟩
    · cases e.symm.trans h
      exact .inl ⟨by simp [busAccesses, hh, fetch_of_not_inRange hr], rfl⟩
    · cases e.symm.trans h
      exact .inr (.inl ⟨by simp [busAccesses, hh, fetch_of_inRange hr, hd, State.fetchAccess], rfl⟩)
    · refine .inr (.inr ⟨i, ⟨hh, hr, hd⟩, e.symm.trans h, ?_⟩)
      simp [busAccesses, hh, fetch_of_inRange hr, hd, State.fetchAccess, State.afterFetch]

/-- Settles O30: the fetch only reads, and the execute phase changes memory as its own accesses do. -/
theorem memoryFollowsPortAccesses : Obligations.MemoryFollowsPortAccesses := by
  intro s t h
  rcases busAccesses_cases h with ⟨e, hmem⟩ | ⟨e, hmem⟩ | ⟨i, hf, hexec, e⟩ <;> rw [e]
  · exact ⟨Nat.zero_le 2, hmem, by simp, by simp⟩
  · exact ⟨by simp, hmem, by simp [State.fetchAccess], by simp [State.fetchAccess]⟩
  · refine ⟨Nat.succ_le_succ (execAccesses_length i _), exec_mem_eq_foldl hexec, by simp [State.fetchAccess],
      fun b hb hwe => ?_⟩
    rcases List.mem_cons.1 hb with rfl | hb
    · cases hwe
    · obtain ⟨location, value, rfl⟩ := execAccesses_write hb hwe
      exact ⟨location, value, hf⟩

/-! ### A cell along a run (R61) -/

/-- A step keeps memory, or it stores the word of one of its write accesses: of two accesses the first is a read. -/
theorem step_mem_eq_write {s t : State} (h : step s = .next t) :
    t.mem = s.mem ∨ ∃ b ∈ busAccesses s, b.we = true ∧ t.mem = s.mem.write (signed b.addr).toNat b.data := by
  rcases busAccesses_cases h with ⟨_, hmem⟩ | ⟨_, hmem⟩ | ⟨i, _, hexec, e⟩
  · exact .inl hmem
  · exact .inl hmem
  · have hmem : t.mem = (execAccesses i s.afterFetch).foldl Memory.apply s.mem := exec_mem_eq_foldl hexec
    match haccesses : execAccesses i s.afterFetch, execAccesses_length i s.afterFetch with
    | [], _ => rw [haccesses] at hmem; exact .inl hmem
    | [b], _ =>
      rw [haccesses] at hmem
      cases hwe : b.we with
      | false => exact .inl (hmem.trans (Memory.apply_of_read hwe))
      | true =>
        exact .inr ⟨b, by simp [e, haccesses], hwe, hmem.trans (Memory.apply_of_write hwe)⟩

theorem step_keeps_cell {s t : State} {a : Nat} (hm : s.mem.wf = true) (h : step s = .next t)
    (hno : ∀ b ∈ busAccesses s, b.we = true → (signed b.addr).toNat ≠ a) : t.mem.read a = s.mem.read a := by
  rcases step_mem_eq_write h with e | ⟨b, hb, hwe, e⟩ <;> rw [e]
  rw [Memory.read_write hm, if_neg (hno b hb hwe).symm]

/-- Settles O31, by induction on the run: memory stays canonical, so each step's store leaves the cell. -/
theorem cellKeepsWordUntilStored : Obligations.CellKeepsWordUntilStored := by
  intro n
  induction n with
  | zero => intro s t a _ h _; rw [reaches_zero.1 h]
  | succ n ih =>
    intro s t a hs h hno
    obtain ⟨u, hsu, hut⟩ := reaches_succ.1 h
    have hrest : t.mem.read a = u.mem.read a := ih u t a (stepKeepsInvariant s u hs hsu) hut fun k hk w hw =>
      hno (k + 1) (Nat.succ_lt_succ hk) w (reaches_succ.2 ⟨u, hsu, hw⟩)
    have hfirst : u.mem.read a = s.mem.read a :=
      step_keeps_cell hs.1 hsu (hno 0 (Nat.succ_pos n) s (reaches_zero.2 rfl))
    exact hrest.trans hfirst

end Sys2Proof.Machine

/-! SUPPORT. Proofs about the encoding (spec/30_encoding.md): the fields of a word and the word of its fields as numbers,
which fields are an instruction's, and that decoding and encoding are inverse. -/

namespace Sys2Proof

open Sys2Proof.Machine

/-! ### The fields of a word as numbers (R82) -/

theorem decodeFields_opcode_toNat (w : Word) : (decodeFields w).opcode.toNat = w.toNat % 65536 := by
  simp [decodeFields]

theorem decodeFields_operand2_toNat (w : Word) : (decodeFields w).operand2.toNat = w.toNat / 65536 % 256 := by
  simp [decodeFields, Nat.shiftRight_eq_div_pow]

/-- Nothing is above operand1, so the quotient needs no remainder. -/
theorem decodeFields_operand1_toNat (w : Word) : (decodeFields w).operand1.toNat = w.toNat / 16777216 := by
  have hw : w.toNat < 4294967296 := w.isLt
  have hslice : (decodeFields w).operand1.toNat = w.toNat / 16777216 % 256 := by
    simp [decodeFields, Nat.shiftRight_eq_div_pow]
  omega

/-- A word taken modulo `2^32` is its unsigned value. -/
theorem signed_emod (w : Word) : signed w % 4294967296 = (w.toNat : Int) :=
  calc signed w % 4294967296
    _ = (w.toNat : Int).bmod 4294967296 % (4294967296 : Nat) := by rw [signed, BitVec.toInt_eq_toNat_bmod]; rfl
    _ = (w.toNat : Int) % (4294967296 : Nat) := Int.bmod_emod
    _ = (w.toNat : Int) := Int.emod_eq_of_lt (Int.natCast_nonneg _) (Int.ofNat_lt.2 w.isLt)

/-- Settles O2. -/
theorem decodedFieldsAreUnsignedSlices : Obligations.DecodedFieldsAreUnsignedSlices := by
  intro w
  refine ⟨fun k hk => ?_, fun k hk => ?_, fun k hk => ?_, ?_, ?_, ?_⟩
  · simp [decodeFields, hk]
  · simp [decodeFields, hk]
  · simp [decodeFields, hk]
  · rw [signed_emod, decodeFields_opcode_toNat]; omega
  · rw [signed_emod, decodeFields_operand2_toNat]; omega
  · rw [signed_emod, decodeFields_operand1_toNat]; omega

/-! ### The word of three fields (R83) -/

/-- Appending a bit vector on the right shifts by its width. -/
theorem toNat_append_eq_add {m n : Nat} (x : BitVec m) (y : BitVec n) :
    (x ++ y).toNat = x.toNat * 2 ^ n + y.toNat := by
  rw [BitVec.toNat_append, ← Nat.shiftLeft_add_eq_or_of_lt y.isLt, Nat.shiftLeft_eq]

theorem encodeFields_toNat (f : Fields) :
    (encodeFields f).toNat = f.operand1.toNat * 16777216 + f.operand2.toNat * 65536 + f.opcode.toNat := by
  rw [encodeFields, BitVec.toNat_cast, toNat_append_eq_add, toNat_append_eq_add]
  omega

theorem pattern_toNat (w : Word) : pattern (w.toNat : Int) = w := by
  rw [pattern, BitVec.ofInt_natCast, BitVec.ofNat_toNat, BitVec.setWidth_eq]

/-- Settles O3: bit 31 of the word is bit 7 of operand1. -/
theorem encodedWordIsFormula : Obligations.EncodedWordIsFormula := by
  intro f
  constructor
  · have hword := pattern_toNat (encodeFields f)
    rw [encodeFields_toNat] at hword
    exact_mod_cast hword.symm
  · intro h
    rw [signed, BitVec.toInt_neg_iff, encodeFields_toNat]
    omega

/-! ### The fields partition the word (R84) -/

theorem Fields.ext {f g : Fields} (hopcode : f.opcode = g.opcode) (hoperand1 : f.operand1 = g.operand1)
    (hoperand2 : f.operand2 = g.operand2) : f = g := by
  cases f
  cases g
  simp_all

theorem decodeFields_encodeFields (f : Fields) : decodeFields (encodeFields f) = f := by
  have hopcode : f.opcode.toNat < 65536 := f.opcode.isLt
  have hoperand2 : f.operand2.toNat < 256 := f.operand2.isLt
  apply Fields.ext
  · exact Laws.OpcodeField.extract_opcode f
  · apply BitVec.eq_of_toNat_eq
    rw [decodeFields_operand1_toNat, encodeFields_toNat]
    omega
  · apply BitVec.eq_of_toNat_eq
    rw [decodeFields_operand2_toNat, encodeFields_toNat]
    omega

theorem encodeFields_decodeFields (w : Word) : encodeFields (decodeFields w) = w := by
  apply BitVec.eq_of_toNat_eq
  rw [encodeFields_toNat, decodeFields_opcode_toNat, decodeFields_operand1_toNat, decodeFields_operand2_toNat]
  omega

/-- Settles O1. -/
theorem fieldsRoundTripBothWays : Obligations.FieldsRoundTripBothWays :=
  ⟨decodeFields_encodeFields, encodeFields_decodeFields⟩

/-! ### The fields of an instruction (R85, R86) -/

theorem instrOfFields_fieldsOfInstr (i : Instr) : instrOfFields (fieldsOfInstr i) = .ok i := by
  cases i <;> rfl

theorem fieldsOfInstr_of_instrOfFields {f : Fields} {i : Instr} (h : instrOfFields f = .ok i) :
    fieldsOfInstr i = f := by
  obtain ⟨opcode, a, b⟩ := f
  simp only [instrOfFields] at h
  split_ifs at h <;> cases h <;> subst opcode <;> rfl

/-- Dispatch answers the one instruction with these fields. -/
theorem instrOfFields_eq_ok_iff {f : Fields} {i : Instr} : instrOfFields f = .ok i ↔ fieldsOfInstr i = f :=
  ⟨fieldsOfInstr_of_instrOfFields, fun h => h ▸ instrOfFields_fieldsOfInstr i⟩

/-- Three fields are an instruction's when the opcode is one of the seven numbers, whatever the operands. -/
theorem exists_fieldsOfInstr_iff {f : Fields} : (∃ i, fieldsOfInstr i = f) ↔ f.opcode.toNat ≤ 6 := by
  constructor
  · rintro ⟨i, rfl⟩
    cases i <;> simp [fieldsOfInstr]
  · obtain ⟨opcode, a, b⟩ := f
    intro h
    have hseven : opcode = 0 ∨ opcode = 1 ∨ opcode = 2 ∨ opcode = 3 ∨ opcode = 4 ∨ opcode = 5 ∨ opcode = 6 := by
      bv_omega
    rcases hseven with rfl | rfl | rfl | rfl | rfl | rfl | rfl
    · exact ⟨.nop a b, rfl⟩
    · exact ⟨.hlt a b, rfl⟩
    · exact ⟨.ldm a b, rfl⟩
    · exact ⟨.ldq a b, rfl⟩
    · exact ⟨.wrm a b, rfl⟩
    · exact ⟨.add a b, rfl⟩
    · exact ⟨.adq a b, rfl⟩

/-! ### Instructions and their words -/

/-- A word decodes to the one instruction it encodes. -/
theorem decodeInstr_eq_ok_iff {w : Word} {i : Instr} : decodeInstr w = .ok i ↔ encodeInstr i = w := by
  rw [decodeInstr, instrOfFields_eq_ok_iff, encodeInstr]
  constructor
  · intro h
    rw [h, encodeFields_decodeFields]
  · intro h
    rw [← h, decodeFields_encodeFields]

/-- Settles O4. -/
theorem decodeAndEncodeAreInverse : Obligations.DecodeAndEncodeAreInverse :=
  ⟨fun _ => decodeInstr_eq_ok_iff.2 rfl, fun _ _ => decodeInstr_eq_ok_iff.1⟩

/-! ### Mask and match (R86) -/

theorem toNat_and_opcodeMask (w : Word) : (w &&& 0x0000FFFF#32).toNat = (decodeFields w).opcode.toNat := by
  rw [decodeFields_opcode_toNat, BitVec.toNat_and]
  exact Nat.and_two_pow_sub_one_eq_mod w.toNat 16

/-- A family of instructions that keeps both operand bytes is selected by its opcode number alone. -/
theorem exists_decodeInstr_eq_ok_iff {family : Byte → Byte → Instr} (opcode : Opcode)
    (hfamily : ∀ a b, fieldsOfInstr (family a b) = ⟨opcode, a, b⟩) (w : Word) :
    (∃ a b, decodeInstr w = .ok (family a b)) ↔ w &&& 0x0000FFFF#32 = opcode.setWidth 32 := by
  have hopcode : w &&& 0x0000FFFF#32 = opcode.setWidth 32 ↔ opcode = (decodeFields w).opcode := by
    rw [← BitVec.toNat_inj, ← BitVec.toNat_inj, toNat_and_opcodeMask, BitVec.toNat_setWidth]
    omega
  simp only [hopcode, decodeInstr, instrOfFields_eq_ok_iff, hfamily]
  constructor
  · rintro ⟨a, b, h⟩
    rw [← h]
  · rintro rfl
    exact ⟨_, _, rfl⟩

/-- A word is no instruction when its opcode field is above the seven numbers (R91). -/
theorem exists_decodeInstr_eq_error_iff (w : Word) :
    (∃ e, decodeInstr w = .error e) ↔ 6 < (decodeFields w).opcode.toNat := by
  rw [← Nat.not_le, ← exists_fieldsOfInstr_iff]
  simp only [← instrOfFields_eq_ok_iff, decodeInstr]
  cases instrOfFields (decodeFields w) <;> simp

/-- Settles O5. -/
theorem maskedOpcodeSelectsInstr : Obligations.MaskedOpcodeSelectsInstr := by
  intro w
  rw [toNat_and_opcodeMask]
  exact ⟨exists_decodeInstr_eq_ok_iff Config.opcNop (fun _ _ => rfl) w,
    exists_decodeInstr_eq_ok_iff Config.opcHlt (fun _ _ => rfl) w,
    exists_decodeInstr_eq_ok_iff Config.opcLdm (fun _ _ => rfl) w,
    exists_decodeInstr_eq_ok_iff Config.opcLdq (fun _ _ => rfl) w,
    exists_decodeInstr_eq_ok_iff Config.opcWrm (fun _ _ => rfl) w,
    exists_decodeInstr_eq_ok_iff Config.opcAdd (fun _ _ => rfl) w,
    exists_decodeInstr_eq_ok_iff Config.opcAdq (fun _ _ => rfl) w,
    exists_decodeInstr_eq_error_iff w⟩

/-! ### Words of the spec's table -/

/-- Settles O6: each word is the encoding of its instruction, but for the one whose opcode is none of the seven. -/
theorem specWordsDecode : Obligations.SpecWordsDecode := by
  refine ⟨?_, ?_, ?_, ?_, ?_, ?_, ?_, ?_, by decide⟩ <;> exact decodeInstr_eq_ok_iff.2 (by decide)

end Sys2Proof

/-! SUPPORT. Proofs about the step cycle (spec/40_step_cycle.md): the step of a fetched instruction and of a placed one, and
runs under fuel as steps. -/

namespace Sys2Proof.Machine

/-! ### The instruction a step runs (R111 to R114) -/

/-- Settles O20. -/
theorem stepRunsDecodedInstr : Obligations.StepRunsDecodedInstr :=
  fun _ _ => step_of_fetchesInstr

theorem placeAtPc_of_inRange {s : State} (w : Word) (h : s.mem.inRange (signed s.pc) = true) :
    placeAtPc s w = s.withMem (s.mem.write (signed s.pc).toNat w) := by
  simp only [placeAtPc, memIndex_of_inRange .fetch h]

/-- A number below `2^32` is placed as the word it is. -/
theorem State.withFetchWord_toNat (s : State) (w : Word) : s.withFetchWord 32 w.toNat = placeAtPc s w := by
  rw [State.withFetchWord, Nat.mod_eq_of_lt w.isLt, BitVec.ofNat_toNat, BitVec.setWidth_eq]

/-- The word placed is the one the next step fetches. -/
theorem placeAtPc_fetchesWord {s : State} (w : Word) (hm : s.mem.wf = true) (hrun : s.Running)
    (h : s.mem.inRange (signed s.pc) = true) : (placeAtPc s w).FetchesWord w := by
  rw [placeAtPc_of_inRange w h]
  refine ⟨hrun, h, ?_⟩
  rw [State.withMem_mem, State.withMem_pc, Memory.read_write hm, if_pos rfl]

/-- Settles O22: the placed word is fetched, and it decodes to the instruction it encodes. -/
theorem placedInstrIsTheOneRun : Obligations.PlacedInstrIsTheOneRun := by
  intro s i ⟨hm, _⟩ hrun h
  rw [State.withFetchWord_toNat]
  obtain ⟨hrun', h', hw⟩ := placeAtPc_fetchesWord (encodeInstr i) hm hrun h
  exact step_of_fetchesInstr ⟨hrun', h', decodeInstr_eq_ok_iff.2 hw.symm⟩

/-! ### Steps past the halt (R31, R118) -/

/-- The step has one answer, so a run goes on from that answer. -/
theorem reaches_succ_of_step {s u : State} (hu : step s = .next u) (n : Nat) (t : State) :
    Reaches (n + 1) s t ↔ Reaches n u t := by
  rw [reaches_succ]
  constructor
  · rintro ⟨v, hv, ht⟩
    cases hu.symm.trans hv
    exact ht
  · exact fun ht => ⟨u, hu, ht⟩

theorem reaches_of_halted {s : State} (hs : s.Halted) (n : Nat) (t : State) : Reaches n s t ↔ s = t := by
  induction n with
  | zero => exact reaches_zero
  | succ n ih => exact (reaches_succ_of_step (step_of_halted hs) n t).trans ih

/-- Settles O42. -/
theorem haltedStateIsFrozen : Obligations.HaltedStateIsFrozen :=
  fun n s hs => (reaches_of_halted hs n s).2 rfl

/-! ### The run loop under fuel (R110, R235) -/

/-- An execute phase never stops by a fault or a refusal of the model. -/
theorem exec_answers_next (i : Instr) (s : State) : ∃ t, exec i s = .next t := by
  rw [exec_eq_complete]
  exact complete_answers_next s _

theorem step_answers_next (s : State) : ∃ t, step s = .next t := by
  cases hs : s.err.halted with
  | true => exact ⟨s, step_of_halted hs⟩
  | false =>
    rcases step_cases s hs with ⟨_, e⟩ | ⟨_, _, e⟩ | ⟨_, i, _, e⟩
    · exact ⟨_, e⟩
    · exact ⟨_, e⟩
    · rw [e]
      exact exec_answers_next i _

theorem runLoop_of_halted {s : State} (hs : s.Halted) (n : Nat) : runLoop n s = .halted s := by
  cases n <;> exact if_pos hs

theorem runLoop_zero_of_running {s : State} (hs : s.Running) : runLoop 0 s = .outOfFuel s :=
  if_neg (Bool.eq_false_iff.1 hs)

theorem runLoop_succ_of_running {s u : State} (hs : s.Running) (hu : step s = .next u) (n : Nat) :
    runLoop (n + 1) s = runLoop n u := by
  simp [runLoop, hs, hu]

/-- In Halted the loop and the steps both stay, whatever the fuel. -/
theorem runLoop_iff_reaches_of_halted {s : State} (hs : s.Halted) (n : Nat) (t : State) :
    (runLoop n s = .halted t ↔ Reaches n s t ∧ t.Halted) ∧
      (runLoop n s = .outOfFuel t ↔ Reaches n s t ∧ t.Running) := by
  rw [runLoop_of_halted hs, reaches_of_halted hs, RunEnd.halted.injEq]
  refine ⟨⟨fun e => ⟨e, e ▸ hs⟩, And.left⟩, nofun, ?_⟩
  rintro ⟨rfl, hrun⟩
  cases hs.symm.trans hrun

theorem runLoop_zero_iff_of_running {s : State} (hs : s.Running) (t : State) :
    (runLoop 0 s = .halted t ↔ Reaches 0 s t ∧ t.Halted) ∧
      (runLoop 0 s = .outOfFuel t ↔ Reaches 0 s t ∧ t.Running) := by
  rw [runLoop_zero_of_running hs, reaches_zero, RunEnd.outOfFuel.injEq]
  refine ⟨⟨nofun, ?_⟩, fun e => ⟨e, e ▸ hs⟩, And.left⟩
  rintro ⟨rfl, hhalted⟩
  cases hs.symm.trans hhalted

/-- Settles O43, by induction on the fuel: a running state makes the same step in the loop and in the run. -/
theorem runLoopFollowsSteps : Obligations.RunLoopFollowsSteps := by
  intro n
  induction n with
  | zero =>
    intro s t
    cases hs : s.err.halted with
    | true => exact runLoop_iff_reaches_of_halted hs 0 t
    | false => exact runLoop_zero_iff_of_running hs t
  | succ n ih =>
    intro s t
    cases hs : s.err.halted with
    | true => exact runLoop_iff_reaches_of_halted hs (n + 1) t
    | false =>
      obtain ⟨u, hu⟩ := step_answers_next s
      rw [runLoop_succ_of_running hs hu, reaches_succ_of_step hu]
      exact ih u t

end Sys2Proof.Machine

/-! SUPPORT. Proofs about NOP and HLT (spec/41_nop_hlt.md): the meaning of each for any operand bytes, and that a run ends
with `ERR = 2` by HLT only. -/

namespace Sys2Proof.Machine

/-! ### The words of NOP and HLT -/

/-- The word of NOP, its fields written side by side (R83, R85). -/
theorem encodeInstr_nop (op1 op2 : Byte) : encodeInstr (.nop op1 op2) = op1 ++ op2 ++ 0#16 := rfl

/-- The word of HLT, its fields written side by side (R83, R85). -/
theorem encodeInstr_hlt (op1 op2 : Byte) : encodeInstr (.hlt op1 op2) = op1 ++ op2 ++ 1#16 := rfl

/-- A state that fetches the word of an instruction fetches that instruction. -/
theorem State.FetchesWord.fetchesInstr {s : State} {i : Instr} (h : s.FetchesWord (encodeInstr i)) :
    s.FetchesInstr i := by
  obtain ⟨hrun, hr, hw⟩ := h
  exact ⟨hrun, hr, decodeInstr_eq_ok_iff.2 hw.symm⟩

/-- A state fetches at most one instruction. -/
theorem State.FetchesInstr.unique {s : State} {i j : Instr} (hi : s.FetchesInstr i) (hj : s.FetchesInstr j) : i = j := by
  obtain ⟨_, _, hdi⟩ := hi
  obtain ⟨_, _, hdj⟩ := hj
  exact Except.ok.inj (hdi.symm.trans hdj)

/-! ### The execute phases (R130, R131) -/

theorem exec_nop (op1 op2 : Byte) (s : State) : exec (.nop op1 op2) s = .next s := rfl

theorem exec_hlt (op1 op2 : Byte) (s : State) : exec (.hlt op1 op2) s = .next (s.withErr s.err.setHalted) := rfl

/-- Settles O11: the step is the fetch, and the execute phase adds nothing. -/
theorem nopHasNoEffect : Obligations.NopHasNoEffect := by
  intro op1 op2 s
  refine ⟨decodeInstr_eq_ok_iff.2 (encodeInstr_nop op1 op2), exec_nop op1 op2 s, fun hw => ?_⟩
  rw [← encodeInstr_nop] at hw
  exact (step_of_fetchesInstr hw.fetchesInstr).trans (exec_nop op1 op2 s.afterFetch)

/-! ### The mask of a clean halt (R234) -/

/-- `ERR = 2` says that `HALTED` is set and no error flag is (R28). -/
theorem Err.mask_eq_two_iff (e : Err) :
    e.mask = 2 ↔ e.halted = true ∧ e.unknownOpcode = false ∧ e.addrFault = false := by
  obtain ⟨u, hh, a⟩ := e
  cases u <;> cases hh <;> cases a <;> decide

/-- In Running no error flag is set yet, so HLT leaves `HALTED` alone in the mask. -/
theorem Err.setHalted_mask {e : Err} (hwf : e.wf = true) (hrun : e.halted = false) : e.setHalted.mask = 2 := by
  obtain ⟨hunknown, haddr⟩ := Err.error_flags_clear hwf hrun
  exact (Err.mask_eq_two_iff _).2 ⟨rfl, hunknown, haddr⟩

/-- A state that took an exception has an error flag set (R191). -/
theorem not_cleanHalt_raise (c : Cause) (s : State) : ¬ (raise c s).CleanHalt := by
  rw [State.CleanHalt, Err.mask_eq_two_iff, raise_err]
  rintro ⟨_, hunknown, haddr⟩
  cases c with
  | unknownOpcode w => cases hunknown
  | addressFault kind value => cases haddr

theorem State.Running.not_cleanHalt {s : State} (hrun : s.Running) : ¬ s.CleanHalt := fun hclean =>
  Bool.eq_false_iff.1 hrun ((Err.mask_eq_two_iff s.err).1 hclean).1

/-- Settles O12: `HALTED` is the one flag the execute phase sets, after a fetch that moved the program counter only. -/
theorem hltSetsOnlyHalted : Obligations.HltSetsOnlyHalted := by
  intro op1 op2 s
  refine ⟨decodeInstr_eq_ok_iff.2 (encodeInstr_hlt op1 op2),
    ⟨_, exec_hlt op1 op2 s, fun _ => rfl, ⟨rfl, fun _ => rfl⟩, rfl, rfl, rfl⟩, fun ⟨_, herr⟩ hw => ?_⟩
  rw [← encodeInstr_hlt] at hw
  have hrun : s.Running := hw.1
  exact ⟨_, (step_of_fetchesInstr hw.fetchesInstr).trans (exec_hlt op1 op2 s.afterFetch),
    Err.setHalted_mask herr hrun, s.afterFetch_pc, fun _ hj => s.readReg_writeReg_ne _ hj, rfl, fun _ => rfl⟩

/-! ### Only HLT halts cleanly (R131, R234) -/

/-- An execute phase that begins in Running ends with `ERR = 2` when it is HLT's: any other keeps `ERR` or takes an
exception. -/
theorem exec_cleanHalt_iff {i : Instr} {s t : State} (hwf : s.err.wf = true) (hrun : s.Running)
    (h : exec i s = .next t) : t.CleanHalt ↔ ∃ op1 op2, i = .hlt op1 op2 := by
  constructor
  · intro hclean
    rcases exec_cases i s t h with rfl | ⟨op1, op2, hi, _⟩ | ⟨_, _, rfl⟩ | ⟨_, _, _, rfl⟩ | ⟨_, _, rfl⟩
    · exact absurd hclean hrun.not_cleanHalt
    · exact ⟨op1, op2, hi⟩
    · exact absurd hclean hrun.not_cleanHalt
    · exact absurd hclean hrun.not_cleanHalt
    · exact absurd hclean (not_cleanHalt_raise _ s)
  · rintro ⟨op1, op2, rfl⟩
    cases (exec_hlt op1 op2 s).symm.trans h
    exact Err.setHalted_mask hwf hrun

/-- Settles O39: a step that fetches no instruction takes an exception, and one that fetches an instruction ends as its
execute phase does. -/
theorem onlyHltHaltsCleanly : Obligations.OnlyHltHaltsCleanly := by
  intro s t ⟨_, herr⟩ hrun h
  rcases step_cases s hrun with ⟨hr, e⟩ | ⟨_, ⟨_, hd⟩, e⟩ | ⟨hr, i, hd, e⟩ <;> rw [e] at h
  · cases h
    refine iff_of_false (not_cleanHalt_raise _ _) ?_
    rintro ⟨_, _, _, hr', _⟩
    cases hr.symm.trans hr'
  · cases h
    refine iff_of_false (not_cleanHalt_raise _ _) ?_
    rintro ⟨_, _, _, _, hd'⟩
    cases hd.symm.trans hd'
  · have hi : s.FetchesInstr i := ⟨hrun, hr, hd⟩
    rw [exec_cleanHalt_iff (s := s.afterFetch) herr hrun h]
    constructor
    · rintro ⟨op1, op2, rfl⟩
      exact ⟨op1, op2, hi⟩
    · rintro ⟨op1, op2, hhlt⟩
      exact ⟨op1, op2, hi.unique hhlt⟩

end Sys2Proof.Machine

/-! SUPPORT. Proofs about LDM and WRM (spec/42_ldm_wrm.md): the load, the store and the faults of each, and the load that
reads a store back. -/

namespace Sys2Proof.Machine

/-! ### The words of LDM and WRM -/

/-- The word of LDM, its fields written side by side (R83, R85). -/
theorem encodeInstr_ldm (source target : Byte) : encodeInstr (.ldm source target) = source ++ target ++ 2#16 := rfl

/-- The word of WRM, its fields written side by side (R83, R85). -/
theorem encodeInstr_wrm (location value : Byte) : encodeInstr (.wrm location value) = location ++ value ++ 4#16 := rfl

/-! ### An addressing fault (R191, R193) -/

theorem tookAddressFault_raise (k : AddressKind) (v : Int) (s : State) :
    TookAddressFault s (raise (.addressFault k v) s) :=
  ⟨raise_readReg _ s, ⟨rfl, fun _ => rfl⟩, rfl, rfl, rfl⟩

/-- An instruction whose effect raises an addressing fault has no other effect. -/
theorem exec_tookAddressFault {i : Instr} {s : State} {k : AddressKind} {v : Int}
    (h : execEffect i s = .error (.addressFault k v)) : ∃ t, exec i s = .next t ∧ TookAddressFault s t :=
  ⟨_, by rw [exec_eq_complete, h]; rfl, tookAddressFault_raise k v s⟩

/-! ### The operands LDM and WRM check: a register that holds an address and a register for the word (R116, R117) -/

/-- A register byte passes its check when it is at most 16, and it names the entry of its own number. -/
theorem regIndex_eq_ok_iff {b : Byte} {i : RegIndex} : regIndex b = .ok i ↔ b.toNat = i.val := by
  rcases regIndex_cases b with ⟨_, e⟩ | ⟨hb, e⟩
  · rw [e, Except.ok.injEq, Fin.ext_iff]
  · have hi : i.val < Config.regfileLen := i.isLt
    rw [e]
    exact ⟨nofun, fun h => absurd (h ▸ hi) (Nat.not_lt.2 hb)⟩

/-- The checks on the operands do not all pass: where both bytes name registers, the address is out of range. -/
def AddressOperandsFault (address word : Byte) (s : State) : Prop :=
  ∀ a w : RegIndex, regIndex address = .ok a → regIndex word = .ok w → s.mem.inRange (signed (s.readReg a)) = false

theorem addressOperandsFault_of_ge {address word : Byte} (s : State) (h : 17 ≤ address.toNat ∨ 17 ≤ word.toNat) :
    AddressOperandsFault address word s := by
  intro a w ha hw
  have ha17 : a.val < 17 := a.isLt
  have hw17 : w.val < 17 := w.isLt
  rw [regIndex_eq_ok_iff] at ha hw
  omega

theorem addressOperandsFault_of_not_inRange {address : Byte} (word : Byte) {s : State} (ha : address.toNat < 17)
    (h : s.mem.inRange (signed (s.readReg ⟨address.toNat, ha⟩)) = false) : AddressOperandsFault address word s := by
  intro a _ ha' _
  obtain rfl : ⟨address.toNat, ha⟩ = a := Fin.ext (regIndex_eq_ok_iff.1 ha')
  exact h

/-! ### LDM (R140) -/

/-- An LDM whose checks pass loads the word (R140). -/
theorem exec_ldm_of_inRange {source target : Byte} {s : State} {i d : RegIndex} (hi : regIndex source = .ok i)
    (hd : regIndex target = .ok d) (ha : s.mem.inRange (signed (s.readReg i)) = true) :
    exec (.ldm source target) s = .next (s.writeReg d (s.mem.read (signed (s.readReg i)).toNat)) := by
  simp only [exec, execLdm, ldmEffect, hi, hd, memIndex_of_inRange .data ha, bind, Except.bind]
  rfl

theorem exec_ldm_tookAddressFault {source target : Byte} {s : State} (h : AddressOperandsFault source target s) :
    ∃ t, exec (.ldm source target) s = .next t ∧ TookAddressFault s t := by
  rcases ldmEffect_cases source target s with ⟨i, d, hi, hd, ha, _⟩ | ⟨_, _, e⟩
  · cases ha.symm.trans (h i d hi hd)
  · exact exec_tookAddressFault (i := .ldm source target) e

/-- Settles O13. -/
theorem ldmLoadsAddressedWord : Obligations.LdmLoadsAddressedWord := by
  intro source target s
  refine ⟨decodeInstr_eq_ok_iff.2 (encodeInstr_ldm source target),
    fun hs ht => ⟨fun ha => ?_, fun ha => ?_⟩, fun h => ?_⟩
  · exact ⟨_, exec_ldm_of_inRange (regIndex_of_lt hs) (regIndex_of_lt ht) ha, State.readReg_writeReg_self s _ _,
      fun _ hj => State.readReg_writeReg_ne s _ hj, ⟨rfl, fun _ => rfl⟩, rfl⟩
  · exact exec_ldm_tookAddressFault (addressOperandsFault_of_not_inRange target hs ha)
  · exact exec_ldm_tookAddressFault (addressOperandsFault_of_ge s h)

/-! ### WRM (R141) -/

theorem exec_wrm_tookAddressFault {location value : Byte} {s : State} (h : AddressOperandsFault location value s) :
    ∃ t, exec (.wrm location value) s = .next t ∧ TookAddressFault s t := by
  rcases wrmEffect_cases location value s with ⟨l, r, hl, hr, ha, _⟩ | ⟨_, _, e⟩
  · cases ha.symm.trans (h l r hl hr)
  · exact exec_tookAddressFault (i := .wrm location value) e

/-- Settles O14: the store is one write to memory, which changes one cell. -/
theorem wrmStoresRegister : Obligations.WrmStoresRegister := by
  intro location value s hm
  refine ⟨decodeInstr_eq_ok_iff.2 (encodeInstr_wrm location value),
    fun hl hv => ⟨fun ha => ?_, fun ha => ?_⟩, fun h => ?_⟩
  · refine ⟨_, execWrm_of_inRange (regIndex_of_lt hl) (regIndex_of_lt hv) ha, ?_,
      ⟨rfl, fun b hb => ?_⟩, fun _ => rfl, rfl⟩
    · rw [State.withMem_mem, Memory.read_write hm, if_pos rfl]
    · rw [State.withMem_mem, Memory.read_write hm, if_neg hb]
  · exact exec_wrm_tookAddressFault (addressOperandsFault_of_not_inRange value hl ha)
  · exact exec_wrm_tookAddressFault (addressOperandsFault_of_ge s h)

/-! ### A load after a store (R142) -/

/-- Settles O29: the store changes no register, so the load computes the same address, and it is still in range. -/
theorem loadReturnsStoredWord : Obligations.LoadReturnsStoredWord := by
  intro s location value target hl hv ht hm ha
  refine ⟨_, _, execWrm_of_inRange (regIndex_of_lt hl) (regIndex_of_lt hv) ha,
    exec_ldm_of_inRange (regIndex_of_lt hl) (regIndex_of_lt ht) ha, ?_, rfl⟩
  rw [State.readReg_writeReg_self, State.withMem_readReg, State.withMem_mem, Memory.read_write hm, if_pos rfl]

end Sys2Proof.Machine

/-! SUPPORT. Proofs about LDQ, ADD and ADQ (spec/43_ldq_add_adq.md): the law of `add32`, and the one register write or the
register fault of each instruction. -/

namespace Sys2Proof.Machine

/-! ### The law of `add32` (R153) -/

/-- The word of the negated signed value is the negated word. -/
theorem pattern_neg_signed (a : Word) : pattern (-signed a) = -a := by
  rw [pattern, signed, BitVec.ofInt_neg, BitVec.ofInt_toInt]

/-- Settles O7: `add32` is addition of bit vectors, and words under it are a commutative group. -/
theorem add32IsModularAddition : Obligations.Add32IsModularAddition := by
  intro a b c
  simp only [add32_eq_add, pattern_neg_signed]
  exact ⟨BitVec.toInt_add a b, BitVec.toNat_add a b, BitVec.add_comm a b, BitVec.add_assoc a b c, BitVec.add_zero a,
    BitVec.add_right_neg a⟩

/-! ### The words of LDQ, ADD and ADQ -/

/-- The word of LDQ, its fields written side by side (R83, R85). -/
theorem encodeInstr_ldq (target imm : Byte) : encodeInstr (.ldq target imm) = target ++ imm ++ 3#16 := rfl

/-- The word of ADD, its fields written side by side (R83, R85). -/
theorem encodeInstr_add (dest source : Byte) : encodeInstr (.add dest source) = dest ++ source ++ 5#16 := rfl

/-- The word of ADQ, its fields written side by side (R83, R85). -/
theorem encodeInstr_adq (dest imm : Byte) : encodeInstr (.adq dest imm) = dest ++ imm ++ 6#16 := rfl

/-! ### The values written -/

/-- An immediate is never negative (R88). -/
theorem signed_immediate (b : Byte) : signed (immediate b) = (b.toNat : Int) := by
  have hb : b.toNat < 256 := b.isLt
  rw [signed, BitVec.toInt_eq_toNat_of_lt (by rw [immediate_toNat]; omega), immediate_toNat]

/-- Adding to a register is one write, of the sum with its old value (R115). -/
theorem State.addToReg_eq_writeReg (s : State) (i : RegIndex) (v : Word) :
    s.addToReg i v = s.writeReg i (s.readReg i + v) := by
  rw [State.addToReg, add32_eq_add]

/-- A register write changes no other register, no cell and no flag. -/
theorem State.writeReg_frame (s : State) (d : RegIndex) (v : Word) :
    SameRegsBut d s (s.writeReg d v) ∧ SameMem s (s.writeReg d v) ∧ (s.writeReg d v).err = s.err :=
  ⟨fun _ hj => s.readReg_writeReg_ne v hj, ⟨rfl, fun _ => rfl⟩, rfl⟩

/-! ### Register faults (R195) -/

theorem namesRegister_of_regIndex {b : Byte} {i : RegIndex} (h : regIndex b = .ok i) : namesRegister b = true :=
  decide_eq_true (regIndex_eq_ok_iff.1 h ▸ i.isLt)

/-- An effect succeeds only where every register operand names a register; otherwise it raises an addressing fault. -/
theorem execEffect_cases (i : Instr) (s : State) :
    (i.wellFormed = true ∧ ∃ t, execEffect i s = .ok t) ∨
      ∃ (k : AddressKind) (v : Int), execEffect i s = .error (.addressFault k v) := by
  cases i with
  | nop => exact .inl ⟨rfl, _, rfl⟩
  | hlt => exact .inl ⟨rfl, _, rfl⟩
  | ldm source target =>
    refine (ldmEffect_cases source target s).imp_left fun ⟨_, _, hi, hd, _, e⟩ => ⟨?_, _, e⟩
    simp [Instr.wellFormed, Instr.registerOperands, namesRegister_of_regIndex hi, namesRegister_of_regIndex hd]
  | ldq target imm =>
    refine (ldqEffect_cases target imm s).imp_left fun ⟨_, hd, e⟩ => ⟨?_, _, e⟩
    simp [Instr.wellFormed, Instr.registerOperands, namesRegister_of_regIndex hd]
  | wrm location value =>
    refine (wrmEffect_cases location value s).imp_left fun ⟨_, _, hl, hr, _, e⟩ => ⟨?_, _, e⟩
    simp [Instr.wellFormed, Instr.registerOperands, namesRegister_of_regIndex hl, namesRegister_of_regIndex hr]
  | add dest source =>
    refine (addEffect_cases dest source s).imp_left fun ⟨_, _, hd, hr, e⟩ => ⟨?_, _, e⟩
    simp [Instr.wellFormed, Instr.registerOperands, namesRegister_of_regIndex hd, namesRegister_of_regIndex hr]
  | adq dest imm =>
    refine (adqEffect_cases dest imm s).imp_left fun ⟨_, hd, e⟩ => ⟨?_, _, e⟩
    simp [Instr.wellFormed, Instr.registerOperands, namesRegister_of_regIndex hd]

/-- An instruction with a register operand above 16 has no effect but the fault, whichever operand it is. -/
theorem exec_tookAddressFault_of_register_ge {i : Instr} {b : Byte} (s : State) (hmem : b ∈ i.registerOperands)
    (hb : 17 ≤ b.toNat) : ∃ t, exec i s = .next t ∧ TookAddressFault s t := by
  rcases execEffect_cases i s with ⟨hwf, _⟩ | ⟨_, _, e⟩
  · have hlt : b.toNat < 17 := of_decide_eq_true (List.all_eq_true.1 hwf b hmem)
    omega
  · exact exec_tookAddressFault e

/-! ### LDQ (R150) -/

theorem exec_ldq_of_regIndex {target : Byte} {d : RegIndex} (imm : Byte) (s : State) (hd : regIndex target = .ok d) :
    exec (.ldq target imm) s = .next (s.writeReg d (immediate imm)) := by
  simp only [exec, execLdq, ldqEffect, hd, bind, Except.bind]
  rfl

/-- Settles O15. -/
theorem ldqLoadsZeroExtendedByte : Obligations.LdqLoadsZeroExtendedByte := by
  intro target imm s
  refine ⟨decodeInstr_eq_ok_iff.2 (encodeInstr_ldq target imm), fun ht => ?_,
    exec_tookAddressFault_of_register_ge s (List.mem_singleton_self target)⟩
  refine ⟨_, exec_ldq_of_regIndex imm s (regIndex_of_lt ht), ?_, s.writeReg_frame _ _⟩
  rw [State.readReg_writeReg_self, signed_immediate]

/-! ### ADD (R151) -/

/-- Both operands of ADD are read before the write, so the sum is of the old values also where the registers are one. -/
theorem exec_add_of_regIndex {dest source : Byte} {d r : RegIndex} (s : State) (hd : regIndex dest = .ok d)
    (hr : regIndex source = .ok r) :
    exec (.add dest source) s = .next (s.writeReg d (s.readReg d + s.readReg r)) := by
  rw [← State.addToReg_eq_writeReg]
  simp only [exec, execAdd, addEffect, hd, hr, bind, Except.bind]
  rfl

/-- Settles O16. -/
theorem addStoresWrappedSum : Obligations.AddStoresWrappedSum := by
  intro dest source s
  refine ⟨decodeInstr_eq_ok_iff.2 (encodeInstr_add dest source), fun hd hs => ?_, ?_⟩
  · exact ⟨_, exec_add_of_regIndex s (regIndex_of_lt hd) (regIndex_of_lt hs), s.readReg_writeReg_self _ _,
      s.writeReg_frame _ _⟩
  · rintro (hd | hs)
    · exact exec_tookAddressFault_of_register_ge s (by simp [Instr.registerOperands]) hd
    · exact exec_tookAddressFault_of_register_ge s (by simp [Instr.registerOperands]) hs

/-! ### ADQ (R152) -/

theorem exec_adq_of_regIndex {dest : Byte} {d : RegIndex} (imm : Byte) (s : State) (hd : regIndex dest = .ok d) :
    exec (.adq dest imm) s = .next (s.writeReg d (s.readReg d + immediate imm)) := by
  rw [← State.addToReg_eq_writeReg]
  simp only [exec, execAdq, adqEffect, hd, bind, Except.bind]
  rfl

/-- Settles O17: the immediate has the byte's unsigned value, and the sum of words is the sum of naturals modulo `2^32`. -/
theorem adqAddsUnsignedByte : Obligations.AdqAddsUnsignedByte := by
  intro dest imm s
  refine ⟨decodeInstr_eq_ok_iff.2 (encodeInstr_adq dest imm), fun hd => ?_,
    exec_tookAddressFault_of_register_ge s (List.mem_singleton_self dest)⟩
  refine ⟨_, exec_adq_of_regIndex imm s (regIndex_of_lt hd), ?_, s.writeReg_frame _ _⟩
  rw [State.readReg_writeReg_self, BitVec.toNat_add, immediate_toNat]

end Sys2Proof.Machine

/-! SUPPORT. Proofs about control transfer (spec/44_control_transfer.md): the program counter after an instruction that does
not write register 16, the forms that do write it, and the bound on a run without them. -/

namespace Sys2Proof.Machine

/-! ### The state after the fetch, and a write to the program counter (R24, R26) -/

/-- Operand byte 16 names the program counter (R26). -/
theorem regIndex_pc : regIndex 16#8 = .ok pcReg := regIndex_eq_ok_iff.2 rfl

/-- The byte of a register's number names that register. -/
theorem regIndex_ofNat (r : RegIndex) : regIndex (BitVec.ofNat 8 r.val) = .ok r := by
  have hr : r.val < 17 := r.isLt
  rw [regIndex_eq_ok_iff, BitVec.toNat_ofNat]
  omega

@[simp] theorem State.afterFetch_readReg_pcReg (s : State) : s.afterFetch.readReg pcReg = s.pc + 1 := s.afterFetch_pc

theorem State.afterFetch_readReg_ne (s : State) {r : RegIndex} (hr : r ≠ pcReg) : s.afterFetch.readReg r = s.readReg r :=
  s.readReg_writeReg_ne _ hr

/-- The address a jump writes covers the next address the fetch wrote. -/
theorem State.afterFetch_writeReg_pcReg (s : State) (v : Word) : s.afterFetch.writeReg pcReg v = s.writeReg pcReg v :=
  s.writeReg_writeReg_self pcReg _ v

theorem step_of_fetchesWord {s : State} {i : Instr} (h : s.FetchesWord (encodeInstr i)) : step s = exec i s.afterFetch :=
  step_of_fetchesInstr h.fetchesInstr

/-- A transfer of control: an instruction whose execute phase writes the program counter sends the step there and changes
nothing else (R176). -/
theorem step_jumps {s : State} {i : Instr} {v : Word} (h : s.FetchesWord (encodeInstr i))
    (hexec : exec i s.afterFetch = .next (s.afterFetch.writeReg pcReg v)) :
    ∃ t, step s = .next t ∧ t.pc = v ∧ SameRegsBut pcReg s t ∧ SameMem s t ∧ t.err = s.err := by
  rw [State.afterFetch_writeReg_pcReg] at hexec
  exact ⟨_, (step_of_fetchesWord h).trans hexec, s.pc_writeReg_pcReg v, s.writeReg_frame pcReg v⟩

/-! ### Sequential flow (R171) -/

theorem Instr.registerWritten_ne_of_writesPc {i : Instr} (h : i.writesPc = false) :
    i.registerWritten ≠ some (BitVec.ofNat 8 pcReg.val) := by
  simpa [Instr.writesPc] using h

/-- Settles O23: the fetch advances the program counter, and the execute phase changes no register but the one written. -/
theorem sequentialFlowAdvancesByOne : Obligations.SequentialFlowAdvancesByOne := by
  intro s t i hi hpc h
  rw [step_of_fetchesInstr hi] at h
  have hkept : t.pc = s.afterFetch.pc :=
    onlyTableRegisterChanges i s.afterFetch t h pcReg (Instr.registerWritten_ne_of_writesPc hpc)
  exact hkept.trans s.afterFetch_pc

/-! ### Jumps by ADD (R174) -/

/-- Settles O26: a destination of 16 covers the next address by the sum; any other destination leaves it standing. -/
theorem addPcJumpsRelative : Obligations.AddPcJumpsRelative := by
  intro s r hr
  refine ⟨fun h => ?_, fun h => ?_, fun h => ?_⟩
  · rw [← encodeInstr_add] at h
    have hexec := exec_add_of_regIndex s.afterFetch regIndex_pc (regIndex_ofNat r)
    rw [State.afterFetch_readReg_pcReg, State.afterFetch_readReg_ne s hr] at hexec
    exact step_jumps h hexec
  · rw [← encodeInstr_add] at h
    have hexec := exec_add_of_regIndex s.afterFetch regIndex_pc regIndex_pc
    have hdouble : s.pc + 1 + (s.pc + 1) = 2 * s.pc + 2 := by ring
    rw [State.afterFetch_readReg_pcReg, hdouble] at hexec
    exact step_jumps h hexec
  · rw [← encodeInstr_add] at h
    have hexec := exec_add_of_regIndex s.afterFetch (regIndex_ofNat r) regIndex_pc
    rw [State.afterFetch_readReg_pcReg, State.afterFetch_readReg_ne s hr] at hexec
    refine ⟨_, (step_of_fetchesWord h).trans hexec, ?_, State.readReg_writeReg_self _ r _, fun j hj hjpc => ?_,
      ⟨rfl, fun _ => rfl⟩, rfl⟩
    · exact (State.readReg_writeReg_ne _ _ hr.symm).trans s.afterFetch_pc
    · exact (State.readReg_writeReg_ne _ _ hj).trans (s.afterFetch_readReg_ne hjpc)

/-! ### Jumps by LDM (R175) -/

/-- Settles O27: the load into the program counter is a jump; the fault changes no register after the fetch. -/
theorem ldmPcJumpsIndirect : Obligations.LdmPcJumpsIndirect := by
  intro s r hr h
  rw [← encodeInstr_ldm] at h
  have haddr : s.afterFetch.readReg r = s.readReg r := s.afterFetch_readReg_ne hr
  refine ⟨fun ha => ?_, fun ha => ?_⟩ <;> rw [← haddr] at ha
  · have hexec := exec_ldm_of_inRange (s := s.afterFetch) (regIndex_ofNat r) regIndex_pc ha
    rw [haddr] at hexec
    exact step_jumps h hexec
  · have hfault : AddressOperandsFault (BitVec.ofNat 8 r.val) 16#8 s.afterFetch := by
      intro a _ ha' _
      cases (regIndex_ofNat r).symm.trans ha'
      exact ha
    obtain ⟨t, hexec, hregs, hmem, hflags⟩ := exec_ldm_tookAddressFault hfault
    exact ⟨t, (step_of_fetchesWord h).trans hexec, (hregs pcReg).trans s.afterFetch_pc,
      fun j hj => (hregs j).trans (s.afterFetch_readReg_ne hj), hmem, hflags⟩

/-! ### Jumps by LDQ and ADQ (R172, R173) -/

/-- Settles O24: the word loaded is the byte's unsigned value. -/
theorem ldqPcJumpsAbsolute : Obligations.LdqPcJumpsAbsolute := by
  intro s k h
  rw [← encodeInstr_ldq] at h
  obtain ⟨t, hstep, hpc, hframe⟩ := step_jumps h (exec_ldq_of_regIndex k s.afterFetch regIndex_pc)
  have hk : k.toNat < 256 := k.isLt
  have hsigned : signed t.pc = (k.toNat : Int) := by rw [hpc, signed_immediate]
  exact ⟨t, hstep, hsigned, by omega, hframe⟩

/-- The sum of two words is the integer sum where that is a signed word (R7). -/
theorem signed_add {a b : Word} (hlow : -2147483648 ≤ signed a + signed b) (hhigh : signed a + signed b < 2147483648) :
    signed (a + b) = signed a + signed b :=
  (BitVec.toInt_add a b).trans (Int.bmod_eq_of_le hlow hhigh)

/-- The next address is one more, unless the word is the greatest one. -/
theorem signed_add_one {a : Word} (h : signed a < 2147483647) : signed (a + 1) = signed a + 1 := by
  have hone : signed 1 = 1 := rfl
  have hlow : -2147483648 ≤ signed a := BitVec.le_toInt a
  rw [signed_add (by omega) (by omega), hone]

/-- Settles O25: the fetch has succeeded, so the old program counter is not negative and the sums can only wrap above. -/
theorem adqPcSkipsForward : Obligations.AdqPcSkipsForward := by
  intro s k h
  rw [← encodeInstr_adq] at h
  have hexec := exec_adq_of_regIndex k s.afterFetch regIndex_pc
  rw [State.afterFetch_readReg_pcReg] at hexec
  obtain ⟨t, hstep, hpc, hframe⟩ := step_jumps h hexec
  refine ⟨t, hstep, hpc, fun hnowrap => ?_, hframe⟩
  obtain ⟨_, hr, _⟩ := h
  have hpos : 0 ≤ signed s.pc := ((Memory.inRange_iff _ _).1 hr).1
  have hk : signed (immediate k) = (k.toNat : Int) := signed_immediate k
  have hnext : signed (s.pc + 1) = signed s.pc + 1 := signed_add_one (by omega)
  rw [hpc, signed_add (by omega) (by omega), hnext, hk]

/-- The next address is one more, unless it wraps to a negative word. -/
theorem signed_add_one_of_nonneg {a : Word} (h : 0 ≤ signed (a + 1)) : signed (a + 1) = signed a + 1 := by
  refine signed_add_one (Int.not_le.1 fun hge => ?_)
  have hle : signed a ≤ 2147483647 := BitVec.toInt_le (x := a)
  obtain rfl : a = 2147483647#32 := BitVec.eq_of_toInt_eq (Int.le_antisymm hle hge)
  exact absurd h (by decide)

/-! ### Runs without transfers of control (R179) -/

/-- No instruction fetched on the run from this state writes the program counter. -/
def State.NeverJumps (s : State) : Prop :=
  ∀ (n : Nat) (u : State) (i : Instr), Reaches n s u → u.FetchesInstr i → i.writesPc = false

theorem State.NeverJumps.writesPc_eq_false {s : State} {i : Instr} (h : s.NeverJumps) (hi : s.FetchesInstr i) :
    i.writesPc = false :=
  h 0 s i (reaches_zero.2 rfl) hi

theorem State.NeverJumps.of_step {s u : State} (h : s.NeverJumps) (hu : step s = .next u) : u.NeverJumps :=
  fun n w i hw => h (n + 1) w i (reaches_succ.2 ⟨u, hu, hw⟩)

/-- A step that fetches a word, an instruction or not, and does not jump advances the program counter (R24, R171). -/
theorem step_pc_of_neverJumps {s t : State} (hrun : s.Running) (hr : s.mem.inRange (signed s.pc) = true)
    (hj : s.NeverJumps) (h : step s = .next t) : t.pc = s.pc + 1 := by
  rcases step_cases s hrun with ⟨hr', _⟩ | ⟨_, _, e⟩ | ⟨_, i, hd, _⟩
  · cases hr.symm.trans hr'
  · cases e.symm.trans h
    exact s.afterFetch_pc
  · have hi : s.FetchesInstr i := ⟨hrun, hr, hd⟩
    exact sequentialFlowAdvancesByOne s t i hi (hj.writesPc_eq_false hi) h

/-- At the end of memory the fetch faults (R194). -/
theorem step_halts_of_not_inRange {s : State} (hrun : s.Running) (hr : s.mem.inRange (signed s.pc) = false) :
    ∃ t, step s = .next t ∧ t.Halted := by
  rcases step_cases s hrun with ⟨_, e⟩ | ⟨hr', _⟩ | ⟨hr', _⟩
  · exact ⟨_, e, Cause.setFlags_halted _ _⟩
  · cases hr.symm.trans hr'
  · cases hr.symm.trans hr'

/-- From a program counter out of range the machine halts in its next step, if it has not halted before, and stays so. -/
theorem halted_of_not_inRange {s : State} (hr : s.mem.inRange (signed s.pc) = false) (n : Nat) :
    ∃ t, Reaches (n + 1) s t ∧ t.Halted := by
  cases hs : s.err.halted with
  | true => exact ⟨s, haltedStateIsFrozen (n + 1) s hs, hs⟩
  | false =>
    obtain ⟨t, ht, hhalted⟩ := step_halts_of_not_inRange hs hr
    exact ⟨t, reaches_succ.2 ⟨t, ht, haltedStateIsFrozen n t hhalted⟩, hhalted⟩

/-- Where at most `n` words remain, each step of the running machine leaves one fewer. In the largest memory the program
counter wraps at the end; it is out of range there too, so the hypothesis bounds it in range only. -/
theorem halted_after_remaining_words {n : Nat} {s : State}
    (hn : s.mem.inRange (signed s.pc) = true → (s.mem.words : Int) ≤ signed s.pc + n) (hj : s.NeverJumps) :
    ∃ t, Reaches (n + 1) s t ∧ t.Halted := by
  induction n generalizing s with
  | zero =>
    have hr : s.mem.inRange (signed s.pc) = false := by
      refine Bool.eq_false_iff.2 fun hr => ?_
      have hlt := ((Memory.inRange_iff _ _).1 hr).2
      have hge := hn hr
      omega
    exact halted_of_not_inRange hr 0
  | succ n ih =>
    cases hr : s.mem.inRange (signed s.pc) with
    | false => exact halted_of_not_inRange hr (n + 1)
    | true =>
      cases hs : s.err.halted with
      | true => exact ⟨s, haltedStateIsFrozen (n + 2) s hs, hs⟩
      | false =>
        obtain ⟨u, hu⟩ := step_answers_next s
        have hwords : u.mem.words = s.mem.words := step_keeps_mem_words hu
        have hpc : u.pc = s.pc + 1 := step_pc_of_neverJumps hs hr hj hu
        have hn' : u.mem.inRange (signed u.pc) = true → (u.mem.words : Int) ≤ signed u.pc + n := by
          intro hr'
          have hnonneg := ((Memory.inRange_iff _ _).1 hr').1
          rw [hpc] at hnonneg ⊢
          have hadvance := signed_add_one_of_nonneg hnonneg
          have hremaining := hn hr
          omega
        obtain ⟨t, ht, hhalted⟩ := ih hn' (hj.of_step hu)
        exact ⟨t, reaches_succ.2 ⟨u, hu, ht⟩, hhalted⟩

/-- Settles O44: a run without jumps passes each remaining word at most once, and the next fetch faults. -/
theorem runWithoutJumpsEnds : Obligations.RunWithoutJumpsEnds := by
  intro s _ hpos _ hj
  exact halted_after_remaining_words (fun _ => by omega) hj

end Sys2Proof.Machine

/-! SUPPORT. Proofs about exceptions (spec/60_exceptions.md): what `raise` does, which condition a step raises, and that the
state and the flags after the step are those of the exception taken. -/

namespace Sys2Proof.Machine

/-- Settles O21. -/
theorem stepAlwaysAnswersNext : Obligations.StepAlwaysAnswersNext := step_answers_next

/-! ### `raise` (R191) -/

theorem tookUnknownOpcode_raise (w : Word) (s : State) : TookUnknownOpcode s (raise (.unknownOpcode w) s) :=
  ⟨raise_readReg _ s, ⟨rfl, fun _ => rfl⟩, rfl, rfl, rfl⟩

/-- Settles O33. -/
theorem raiseSetsFlagsOnly : Obligations.RaiseSetsFlagsOnly :=
  fun s => ⟨fun w => tookUnknownOpcode_raise w s, fun kind v => tookAddressFault_raise kind v s⟩

/-- In Running no error flag is set yet, so the unknown-opcode exception gives `ERR = 3` (R192). -/
theorem Err.mask_setFlags_unknownOpcode {e : Err} (hwf : e.wf = true) (hrun : e.halted = false) (w : Word) :
    ((Cause.unknownOpcode w).setFlags e).mask = 3 := by
  obtain ⟨_, haddr⟩ := Err.error_flags_clear hwf hrun
  simp [Err.mask, haddr]

/-- In Running no error flag is set yet, so an addressing fault gives `ERR = 6` (R193). -/
theorem Err.mask_setFlags_addressFault {e : Err} (hwf : e.wf = true) (hrun : e.halted = false) (kind : AddressKind)
    (v : Int) : ((Cause.addressFault kind v).setFlags e).mask = 6 := by
  obtain ⟨hunknown, _⟩ := Err.error_flags_clear hwf hrun
  simp [Err.mask, hunknown]

/-- An error halt has an error flag set (R234). -/
theorem State.ErrorHalt.error_flag {s : State} (h : s.ErrorHalt) :
    s.err.unknownOpcode = true ∨ s.err.addrFault = true := by
  obtain ⟨hbit0, _, hbit2⟩ := s.err.mask_testBit
  rcases h with h | h
  · rw [h] at hbit0
    exact .inl hbit0.symm
  · rw [h] at hbit2
    exact .inr hbit2.symm

/-! ### The state a step takes its exception in (R117, R194, R197) -/

/-- The state in which a step that raises takes its exception: the one after the fetch, or the one before it where the fetch
itself fails. -/
def State.atRaise (s : State) : State := if s.mem.inRange (signed s.pc) then s.afterFetch else s

theorem State.atRaise_of_inRange {s : State} (h : s.mem.inRange (signed s.pc) = true) : s.atRaise = s.afterFetch := if_pos h

theorem State.atRaise_of_not_inRange {s : State} (h : s.mem.inRange (signed s.pc) = false) : s.atRaise = s :=
  if_neg (Bool.eq_false_iff.1 h)

theorem State.atRaise_pc (s : State) : s.atRaise.pc = if s.mem.inRange (signed s.pc) then s.pc + 1 else s.pc := by
  rw [State.atRaise, apply_ite State.pc, State.afterFetch_pc]

/-- Up to the exception a step has changed the program counter and nothing else. -/
theorem State.atRaise_frame (s : State) : SameRegsBut pcReg s s.atRaise ∧ SameMem s s.atRaise ∧ s.atRaise.err = s.err := by
  cases hr : s.mem.inRange (signed s.pc) with
  | true => rw [State.atRaise_of_inRange hr]; exact s.writeReg_frame pcReg _
  | false => rw [State.atRaise_of_not_inRange hr]; exact ⟨fun _ _ => rfl, ⟨rfl, fun _ => rfl⟩, rfl⟩

/-! ### The condition a step raises (R190, R198) -/

theorem execCause_eq_causeOf (i : Instr) (s : State) : execCause i s = causeOf (execEffect i s) := by
  cases i <;> rfl

theorem stepCause_of_not_inRange {s : State} (hrun : s.Running) (hr : s.mem.inRange (signed s.pc) = false) :
    stepCause s = some (.addressFault .fetch (signed s.pc)) := by
  simp [stepCause, hrun, fetch_of_not_inRange hr]

theorem stepCause_of_decode_error {s : State} {e : DecodeError} (hrun : s.Running)
    (hr : s.mem.inRange (signed s.pc) = true) (hd : decodeInstr (s.mem.read (signed s.pc).toNat) = .error e) :
    stepCause s = some (.unknownOpcode (s.mem.read (signed s.pc).toNat)) := by
  simp [stepCause, hrun, fetch_of_inRange hr, hd]

theorem stepCause_of_fetchesInstr {s : State} {i : Instr} (h : s.FetchesInstr i) :
    stepCause s = causeOf (execEffect i s.afterFetch) := by
  obtain ⟨hrun, hr, hd⟩ := h
  rw [← execCause_eq_causeOf]
  simp [stepCause, hrun, fetch_of_inRange hr, hd, State.afterFetch]

/-- A step of the running machine takes the exception it reports, or it reports none and its execute phase succeeds. -/
theorem step_cause_cases {s t : State} (hrun : s.Running) (h : step s = .next t) :
    (∃ c, stepCause s = some c ∧ t = raise c s.atRaise) ∨
      stepCause s = none ∧ ∃ i, execEffect i s.afterFetch = .ok t := by
  rcases step_cases s hrun with ⟨hr, e⟩ | ⟨hr, ⟨_, hd⟩, e⟩ | ⟨hr, i, hd, e⟩ <;> rw [e] at h
  · cases h
    exact .inl ⟨_, stepCause_of_not_inRange hrun hr, by rw [State.atRaise_of_not_inRange hr]⟩
  · cases h
    exact .inl ⟨_, stepCause_of_decode_error hrun hr hd, by rw [State.atRaise_of_inRange hr]; rfl⟩
  · have hcause := stepCause_of_fetchesInstr ⟨hrun, hr, hd⟩
    rw [exec_eq_complete] at h
    rcases complete_next h with hok | ⟨c, herror, rfl⟩
    · exact .inr ⟨hcause.trans (congrArg causeOf hok), i, hok⟩
    · exact .inl ⟨c, hcause.trans (congrArg causeOf herror), by rw [State.atRaise_of_inRange hr]; rfl⟩

/-- A step that raises answers the state with that exception taken. -/
theorem step_of_stepCause {s : State} {c : Cause} (hrun : s.Running) (hc : stepCause s = some c) :
    step s = .next (raise c s.atRaise) := by
  obtain ⟨t, ht⟩ := step_answers_next s
  rcases step_cause_cases hrun ht with ⟨c', hc', rfl⟩ | ⟨hnone, _⟩
  · cases hc.symm.trans hc'
    exact ht
  · cases hc.symm.trans hnone

/-! ### Priority (R198) -/

/-- A word whose opcode field is above the seven numbers is an unknown opcode. -/
theorem State.FetchesWord.stepCause_unknownOpcode {s : State} {w : Word} (h : s.FetchesWord w)
    (hw : 6 < w.toNat % 65536) : stepCause s = some (.unknownOpcode w) := by
  obtain ⟨hrun, hr, rfl⟩ := h
  rw [← decodeFields_opcode_toNat] at hw
  obtain ⟨_, hd⟩ := (exists_decodeInstr_eq_error_iff _).2 hw
  exact stepCause_of_decode_error hrun hr hd

/-- A phase that checks a register operand first raises the fault of the first byte that names no register: this one, or
the first among the bytes it checks later. -/
theorem regIndex_bind_of_find? {α : Type} {b c : Byte} {bs : List Byte} {f : RegIndex → Except Cause α}
    (h : (c :: bs).find? (fun d => !namesRegister d) = some b)
    (hf : bs.find? (fun d => !namesRegister d) = some b → ∀ i, f i = .error (.addressFault .register (b.toNat : Int))) :
    regIndex c >>= f = .error (.addressFault .register (b.toNat : Int)) := by
  rcases regIndex_cases c with ⟨hc, e⟩ | ⟨hc, e⟩
  · have hgood : namesRegister c = true := decide_eq_true hc
    rw [List.find?_cons_of_neg (p := fun d => !namesRegister d) (by simp [hgood])] at h
    rw [e]
    exact hf h _
  · have hbad : namesRegister c = false := decide_eq_false (Nat.not_lt.2 hc)
    rw [List.find?_cons_of_pos (p := fun d => !namesRegister d) (by simp [hbad])] at h
    cases h
    rw [e]
    rfl

/-- Register operands are checked in order, operand1 first and before any address (R117). -/
theorem execEffect_of_find? {i : Instr} {b : Byte} (s : State)
    (h : i.registerOperands.find? (fun c => !namesRegister c) = some b) :
    execEffect i s = .error (.addressFault .register (b.toNat : Int)) := by
  cases i with
  | nop | hlt => cases h
  | ldq | adq => exact regIndex_bind_of_find? h nofun
  | ldm | wrm | add => exact regIndex_bind_of_find? h fun h' _ => regIndex_bind_of_find? h' nofun

/-- Where both register operands of LDM or WRM name registers, an address out of range is the fault. -/
theorem execEffect_of_address_not_inRange {i : Instr} {b c : Byte} {s : State} (hb : b.toNat < 17)
    (hi : i = .ldm b c ∨ i = .wrm b c) (hwf : i.wellFormed = true)
    (ha : s.mem.inRange (signed (s.readReg ⟨b.toNat, hb⟩)) = false) :
    execEffect i s = .error (.addressFault .data (signed (s.readReg ⟨b.toNat, hb⟩))) := by
  have hc : c.toNat < 17 := by
    refine of_decide_eq_true (List.all_eq_true.1 hwf c ?_)
    rcases hi with rfl | rfl <;> exact List.mem_cons_of_mem b (List.mem_singleton_self c)
  rcases hi with rfl | rfl
  · simp only [execEffect, ldmEffect, regIndex_of_lt hb, regIndex_of_lt hc, memIndex_of_not_inRange .data ha, bind,
      Except.bind]
  · simp only [execEffect, wrmEffect, regIndex_of_lt hb, regIndex_of_lt hc, memIndex_of_not_inRange .data ha, bind,
      Except.bind]

/-- Settles O36: the fetch comes before the decoder, the decoder before the execute phase, and that checks operand1,
operand2 and the address in this order. -/
theorem firstConditionMetIsRaised : Obligations.FirstConditionMetIsRaised := by
  intro s hrun
  refine ⟨stepCause_of_not_inRange hrun, fun w h hw => h.stepCause_unknownOpcode hw, fun i b hi hfind => ?_,
    fun i b c hb hi hform hwf ha => ?_⟩
  · rw [stepCause_of_fetchesInstr hi, execEffect_of_find? s.afterFetch hfind]
    rfl
  · rw [stepCause_of_fetchesInstr hi, execEffect_of_address_not_inRange (s := s.afterFetch) hb hform hwf ha]
    rfl

/-! ### The flags after a step (R190, R191) -/

/-- An effect that succeeds sets no error flag: it keeps `ERR`, or it is HLT's. -/
theorem execEffect_error_flags {i : Instr} {s t : State} (h : execEffect i s = .ok t) :
    t.err.unknownOpcode = s.err.unknownOpcode ∧ t.err.addrFault = s.err.addrFault := by
  cases i with
  | nop | hlt => cases h; exact ⟨rfl, rfl⟩
  | ldm | wrm =>
    obtain ⟨_, _, h⟩ := exists_ok_of_bind_ok h
    obtain ⟨_, _, h⟩ := exists_ok_of_bind_ok h
    obtain ⟨_, _, h⟩ := exists_ok_of_bind_ok h
    cases h
    exact ⟨rfl, rfl⟩
  | add =>
    obtain ⟨_, _, h⟩ := exists_ok_of_bind_ok h
    obtain ⟨_, _, h⟩ := exists_ok_of_bind_ok h
    cases h
    exact ⟨rfl, rfl⟩
  | ldq | adq =>
    obtain ⟨_, _, h⟩ := exists_ok_of_bind_ok h
    cases h
    exact ⟨rfl, rfl⟩

/-- In Running no error flag is set yet, and an execute phase that succeeds sets none. -/
theorem execEffect_error_flags_clear {i : Instr} {s t : State} (hwf : s.err.wf = true) (hrun : s.Running)
    (h : execEffect i s.afterFetch = .ok t) : t.err.unknownOpcode = false ∧ t.err.addrFault = false := by
  obtain ⟨hunknown, haddr⟩ := execEffect_error_flags h
  obtain ⟨hunknown', haddr'⟩ := Err.error_flags_clear hwf hrun
  exact ⟨hunknown.trans hunknown', haddr.trans haddr'⟩

theorem raise_atRaise_err (c : Cause) (s : State) : (raise c s.atRaise).err = c.setFlags s.err := by
  obtain ⟨_, _, herr⟩ := s.atRaise_frame
  rw [raise_err, herr]

/-- Settles O37. -/
theorem flagsRecordRaisedCondition : Obligations.FlagsRecordRaisedCondition := by
  intro s t ⟨_, hwf⟩ hrun h
  rcases step_cause_cases hrun h with ⟨c, hc, rfl⟩ | ⟨hnone, i, hok⟩
  · rw [hc, raise_atRaise_err]
    cases c with
    | unknownOpcode w => exact Err.mask_setFlags_unknownOpcode hwf hrun w
    | addressFault kind v => exact Err.mask_setFlags_addressFault hwf hrun kind v
  · rw [hnone]
    exact execEffect_error_flags_clear hwf hrun hok

/-! ### Error halts (R192, R194, R197) -/

/-- An exception taken leaves the step with the fetch's effect only. -/
theorem raise_atRaise_frame (c : Cause) (s : State) :
    SameRegsBut pcReg s (raise c s.atRaise) ∧ SameMem s (raise c s.atRaise) ∧
      (raise c s.atRaise).pc = if s.mem.inRange (signed s.pc) then s.pc + 1 else s.pc := by
  obtain ⟨hregs, hmem, _⟩ := s.atRaise_frame
  exact ⟨hregs, hmem, s.atRaise_pc⟩

/-- Settles O38: a step that ends in an error halt took an exception, since a successful one sets no error flag. -/
theorem errorHaltsArePrecise : Obligations.ErrorHaltsArePrecise := by
  intro s t ⟨_, hwf⟩ hrun h herror
  rcases step_cause_cases hrun h with ⟨c, _, rfl⟩ | ⟨_, i, hok⟩
  · exact raise_atRaise_frame c s
  · obtain ⟨hunknown, haddr⟩ := execEffect_error_flags_clear hwf hrun hok
    rcases herror.error_flag with hflag | hflag
    · cases hunknown.symm.trans hflag
    · cases haddr.symm.trans hflag

/-- Settles O34. -/
theorem unknownOpcodeHalts : Obligations.UnknownOpcodeHalts := by
  intro s w ⟨_, hwf⟩ hf hw
  have hcause : stepCause s = some (.unknownOpcode w) := hf.stepCause_unknownOpcode hw
  obtain ⟨hrun, hr, _⟩ := hf
  obtain ⟨hregs, hmem, hpc⟩ := raise_atRaise_frame (.unknownOpcode w) s
  refine ⟨_, step_of_stepCause hrun hcause, ?_, hpc.trans (if_pos hr), hregs, hmem⟩
  rw [raise_atRaise_err]
  exact Err.mask_setFlags_unknownOpcode hwf hrun w

/-- A failed fetch of the running machine is an addressing fault taken in the very state it began in (R194). -/
theorem step_of_not_inRange {s : State} (hrun : s.Running) (hr : s.mem.inRange (signed s.pc) = false) :
    step s = .next (raise (.addressFault .fetch (signed s.pc)) s) := by
  rw [step_of_stepCause hrun (stepCause_of_not_inRange hrun hr), State.atRaise_of_not_inRange hr]

/-- Without memory no index is in range. -/
theorem Memory.not_inRange_of_words_zero {m : Memory} (h : m.words = 0) (a : Int) : m.inRange a = false := by
  refine Bool.eq_false_iff.2 fun hr => ?_
  obtain ⟨hlow, hhigh⟩ := (Memory.inRange_iff m a).1 hr
  omega

/-- Settles O35. -/
theorem fetchFaultKeepsPc : Obligations.FetchFaultKeepsPc := by
  refine ⟨fun s ⟨_, hwf⟩ hrun hr => ?_, fun mem hmem => ?_⟩
  · exact ⟨_, step_of_not_inRange hrun hr, Err.mask_setFlags_addressFault hwf hrun .fetch (signed s.pc), raise_readReg _ s,
      rfl, fun _ => rfl⟩
  · have hrun : (State.resetWith mem).Running := rfl
    exact ⟨_, step_of_not_inRange hrun (Memory.not_inRange_of_words_zero hmem _),
      Err.mask_setFlags_addressFault Err.clear_wf hrun .fetch (signed (State.resetWith mem).pc),
      State.resetWith_readReg mem pcReg⟩

end Sys2Proof.Machine

/-! SUPPORT. Proofs about reset and the debug port (spec/70_reset_and_hazards.md): what the reset event leaves, and what the
host reads of a core in Halted. -/

namespace Sys2Proof.Machine

/-! ### The reset event (R230, R231) -/

/-- The reset event is reset with the memory the core has, so no register of the state before it shows. -/
@[simp] theorem State.resetEvent_readReg (s : State) (j : RegIndex) : s.resetEvent.readReg j = 0 :=
  State.resetWith_readReg s.mem j

@[simp] theorem Err.mask_clear : Err.clear.mask = 0 := rfl

/-- Settles O46. -/
theorem resetEventKeepsMemory : Obligations.ResetEventKeepsMemory := by
  intro s
  have hmask : s.resetEvent.err.mask = 0 := by rw [State.resetEvent_err, Err.mask_clear]
  have hmem : SameMem s s.resetEvent := ⟨rfl, fun _ => rfl⟩
  exact ⟨s.resetEvent_readReg, hmask, rfl, hmem⟩

/-! ### What the host reads in Halted (R240, R242) -/

theorem State.hostDump_of_halted {s : State} (h : s.Halted) : s.hostDump = some s.mem.dump := if_pos h

/-- In Halted the debug port answers every index of the register file. -/
theorem State.debugReg_of_lt {s : State} {i : BitVec 5} (h : s.Halted) (hi : i.toNat < Config.regfileLen) :
    s.debugReg i = some (s.readReg ⟨i.toNat, hi⟩) :=
  (if_pos h).trans (dif_pos hi)

/-- The 5 bits of `dbg_reg_index` hold every index of the register file. -/
theorem toNat_debugIndex (j : RegIndex) : (BitVec.ofNat 5 j.val).toNat = j.val := by
  have hj : j.val < 17 := j.isLt
  rw [BitVec.toNat_ofNat]
  omega

/-- Settles O50. -/
theorem hostReadsHaltedState : Obligations.HostReadsHaltedState := by
  refine fun s h => ⟨fun j => ?_, State.hostDump_of_halted h⟩
  have hj : (BitVec.ofNat 5 j.val).toNat < Config.regfileLen := (toNat_debugIndex j).trans_lt j.isLt
  have hentry : (⟨(BitVec.ofNat 5 j.val).toNat, hj⟩ : RegIndex) = j := Fin.ext (toNat_debugIndex j)
  rw [State.debugReg_of_lt h hj, hentry]

end Sys2Proof.Machine
